-- ==== Sys2Proof/Word.lean ====
section
/-!
DEFINITION. The one word of the machine: memory cells, registers, opcode bytes, operand bytes and output
values are all unsigned 8-bit values (spec/00_scope.md R7, R8).
-/
namespace Sys2Proof

/-- An unsigned 8-bit value: a memory cell, a register, an opcode byte, an operand byte (R8). -/
abbrev Byte := BitVec 8

/-- The field `b[hi:lo]` of a byte, as the unsigned number its bits form (R8). -/
def bitsOf (hi lo : Nat) (b : Byte) : Nat := b.toNat / 2 ^ lo % 2 ^ (hi + 1 - lo)

end Sys2Proof
end

