-- ==== Sys2Proof/Machine/Flags.lean ====
section
/-!
DEFINITION. Arithmetic results. The block has no flags (spec/10_state.md R29): the exact sum or product is narrowed modulo
256 and the carry or high byte is recorded nowhere (spec/41_alu.md R120 to R122).
-/
namespace Sys2Proof.Machine

/-- An exact unsigned result kept modulo 256 (R122). -/
def narrow (exact : Nat) : Byte := BitVec.ofNat 8 (exact % 256)

/-- The sum of two register values (R120). -/
def addResult (x y : Byte) : Byte := narrow (x.toNat + y.toNat)

/-- The product of two register values (R121). -/
def mulResult (x y : Byte) : Byte := narrow (x.toNat * y.toNat)

end Sys2Proof.Machine
end

