-- ==== Sys2Proof/Syntax.lean ====
section
/-!
DEFINITION. The instructions: one constructor per row of spec/opcode_table.json (spec/30_encoding.md R64).
-/
namespace Sys2Proof

/-- The nine instructions (R64). An operand is the whole operand byte, unchanged (R63): a register operand
above 7 is an instruction too, whose handler raises `AddressFault(REG_INDEX)` (R202; log entry 11). -/
inductive Instr where
  /-- Halt (R101). -/
  | hlt
  /-- Load immediate: register operand `a`, immediate `imm` (R102). -/
  | ldi (a imm : Byte)
  /-- Print register `a` (R103). -/
  | prn (a : Byte)
  /-- Add register `b` to register `a` (R120). -/
  | add (a b : Byte)
  /-- Multiply register `a` by register `b` (R121). -/
  | mul (a b : Byte)
  /-- Push register `a` (R140). -/
  | push (a : Byte)
  /-- Pop into register `a` (R141). -/
  | pop (a : Byte)
  /-- Call the subroutine at the address in register `a` (R160). -/
  | call (a : Byte)
  /-- Return from subroutine (R161). -/
  | ret
  deriving DecidableEq, Repr

end Sys2Proof
end

