-- ==== Sys2Proof/Decode.lean ====
section
/-!
DEFINITION. The opcode table, the decoder and the encoder (spec/30_encoding.md R60 to R67, R81).
-/
namespace Sys2Proof

/-- The two kinds of operand (R63). -/
inductive OperandKind where
  /-- A register index, checked by the handler. -/
  | reg
  /-- An immediate value, never checked. -/
  | imm
  deriving DecidableEq, Repr

/-- One row of the opcode table (R64, R81): the mnemonic, the opcode byte, the kinds of its operands and the
instruction it makes from the two candidate operand bytes, of which it uses only its own. -/
structure OpcodeRow where
  name   : List Char
  opcode : Byte
  kinds  : List OperandKind
  build  : Byte → Byte → Instr

/-- The complete opcode table, fixed and immutable (R64, R81). -/
def opcodeTable : List OpcodeRow :=
  [ ⟨['H', 'L', 'T'],      0b00000001#8, [],           fun _ _ => .hlt⟩,
    ⟨['L', 'D', 'I'],      0b10000010#8, [.reg, .imm], fun a b => .ldi a b⟩,
    ⟨['P', 'R', 'N'],      0b01000111#8, [.reg],       fun a _ => .prn a⟩,
    ⟨['A', 'D', 'D'],      0b10100000#8, [.reg, .reg], fun a b => .add a b⟩,
    ⟨['M', 'U', 'L'],      0b10100010#8, [.reg, .reg], fun a b => .mul a b⟩,
    ⟨['P', 'U', 'S', 'H'], 0b01000101#8, [.reg],       fun a _ => .push a⟩,
    ⟨['P', 'O', 'P'],      0b01000110#8, [.reg],       fun a _ => .pop a⟩,
    ⟨['C', 'A', 'L', 'L'], 0b01010000#8, [.reg],       fun a _ => .call a⟩,
    ⟨['R', 'E', 'T'],      0b00010001#8, [],           fun _ _ => .ret⟩ ]

/-- The operand count `IR[7:6]` of a defined opcode byte (R62). -/
def operandCount (ir : Byte) : Nat := bitsOf 7 6 ir

/-- Why bytes are no instruction. -/
inductive DecodeError where
  /-- There is no opcode byte. -/
  | noBytes
  /-- The opcode byte is none of the nine (R66). -/
  | undefinedOpcode (ir : Byte)
  /-- Fewer operand bytes follow than the opcode's operand count; the engine always fetches two (R80). -/
  | truncated (ir : Byte)
  deriving DecidableEq, Repr

/-- The row of an opcode byte, by equality of the whole byte (R81). -/
def lookupOpcode (ir : Byte) : Option OpcodeRow := opcodeTable.find? fun row => row.opcode == ir

/-- The decoder: the first instruction of a byte sequence and the bytes after it (R60, R66, R67, R81). -/
def decode : List Byte → Except DecodeError (Instr × List Byte)
  | [] => .error .noBytes
  | ir :: rest =>
    match lookupOpcode ir with
    | none => .error (.undefinedOpcode ir)
    | some row =>
      if rest.length < operandCount ir then .error (.truncated ir)
      else .ok (row.build (rest.getD 0 0#8) (rest.getD 1 0#8), rest.drop (operandCount ir))

/-- The opcode byte of an instruction (R64). -/
def opcodeOf : Instr → Byte
  | .hlt => 0x01#8
  | .ldi _ _ => 0x82#8
  | .prn _ => 0x47#8
  | .add _ _ => 0xA0#8
  | .mul _ _ => 0xA2#8
  | .push _ => 0x45#8
  | .pop _ => 0x46#8
  | .call _ => 0x50#8
  | .ret => 0x11#8

/-- The operand bytes of an instruction, in order (R60, R61). -/
def operandsOf : Instr → List Byte
  | .hlt => []
  | .ldi a imm => [a, imm]
  | .prn a => [a]
  | .add a b => [a, b]
  | .mul a b => [a, b]
  | .push a => [a]
  | .pop a => [a]
  | .call a => [a]
  | .ret => []

/-- The encoder: the opcode byte, then the operand bytes at increasing addresses (R44, R60). -/
def encode (i : Instr) : List Byte := opcodeOf i :: operandsOf i

/-- The three bytes of an instruction whose bits are `w`, numbered as spec/opcode_table.json numbers them:
bits 7..0 are the first byte; bits from `nbits` up are 0. -/
def tableBytes (nbits w : Nat) : List Byte :=
  let v := w % 2 ^ nbits
  [BitVec.ofNat 8 v, BitVec.ofNat 8 (v / 256), BitVec.ofNat 8 (v / 65536)]

/-- The instruction the decoder reads from an opcode-table word of `nbits` bits, if any. -/
def decodeTableWord (nbits w : Nat) : Option Instr :=
  match decode (tableBytes nbits w) with
  | .ok (i, _) => some i
  | .error _ => none

end Sys2Proof
end

