-- ==== Sys2Proof/Config.lean ====
section
/-!
DEFINITION. The parameters of the block (spec/00_scope.md R7). All rows are fixed but `SP_RESET`, which the
spec leaves open as a named parameter with a default (spec/92_eei_decisions.md D16). `MEM_SIZE` = 256 is the bound of the
memory operations and of the canonical form, `CELL_WIDTH` = `REG_WIDTH` = 8 is the type `Byte`, `NUM_REGS` = 8 is the length
of the register file, and `INSN_BYTES` and `NUM_OPCODES` are the encoder and the opcode table of Decode.
-/
namespace Sys2Proof.Config

/-- `SP_INDEX`: the register PUSH, POP, CALL and RET use as stack pointer (R7, R22). -/
abbrev spIndex : Fin 8 := 7

/-- `SP_RESET`: the reset value of register 7, here at its default 0xF3 (R7, D16; log entry 5).
`State.resetWith` takes any other value. -/
def spReset : Byte := 0xF3#8

/-- `PC_RESET`: the reset value of the program counter (R7). -/
def pcReset : Nat := 0

/-- `LOAD_BASE`: the address of the first program byte (R7). -/
def loadBase : Nat := 0

end Sys2Proof.Config
end

