-- ==== Sys2Proof/Machine/State.lean ====
section
/-!
DEFINITION. Everything the spec gives the machine, as plain data (spec/10_state.md R20 to R31), and the state
after reset (R30, spec/70_reset_and_hazards.md R240).
-/
namespace Sys2Proof.Machine

/-- The memory `M` (spec/20_memory.md R40): its cells that are not 0, by strictly rising address. An address
not listed reads as 0, its reset value (R30). `Memory.wf` says the form holds. -/
abbrev Memory := List Host.Cell

/-- Which access an `AddressFault` is about (spec/60_exceptions.md R200). -/
inductive AddressKind where
  /-- The opcode byte of the fetch (R203). -/
  | fetch
  /-- A candidate operand byte of the fetch (R203). -/
  | operandFetch
  /-- An operand byte used as a register index (R202). -/
  | regIndex
  /-- The stack pointer leaving 0..255 (R204). -/
  | spRange
  /-- A memory access of a handler; no instruction raises it (R205). -/
  | memory
  deriving DecidableEq, Repr

/-- The fault record: the kind of a core fault and the information recorded (spec/60_exceptions.md R200). -/
inductive FaultRecord where
  /-- The address `pc` and the undefined opcode byte `IR` (R201). -/
  | decodeFault (address : Nat) (byte : Byte)
  /-- An address, an operand byte or a stack-pointer value, by the kind (R202 to R205). -/
  | addressFault (kind : AddressKind) (value : Nat)
  /-- The name of an unsupported ALU operation; no instruction raises it (R206). -/
  | aluUnsupported (operation : String)
  deriving DecidableEq, Repr

/-- The run state, the only control and status register (R27). -/
inductive RunState where
  /-- The engine performs cycles. -/
  | running
  /-- HLT has executed; no further cycle. -/
  | halted
  /-- A core fault has ended execution; no further cycle. -/
  | faulted (record : FaultRecord)
  deriving DecidableEq, Repr

/-- The per-cycle latch: the three bytes the cycle fetched (R26; log entries 3 and 4). -/
structure Latch where
  ir  : Byte
  opA : Byte
  opB : Byte
  deriving DecidableEq, Repr

/-- The complete state of the block (the opening of spec/10_state.md, R31). -/
structure State where
  /-- The memory `M[0..255]` (R40). -/
  mem   : Memory
  /-- The registers `x[0..7]`; `x[7]` is the stack pointer (R20, R22). -/
  regs  : Vector Byte 8
  /-- The program counter, an unbounded natural number (R24). -/
  pc    : Nat
  /-- The run state (R27). -/
  run   : RunState
  /-- The output trace, oldest value first (R28). -/
  out   : List Byte
  /-- The per-cycle latch `IR`, `opA`, `opB` (R26). -/
  latch : Latch
  deriving DecidableEq, Repr

/-- The reasons a step could stop outside the spec's own fault mechanism: there are none. Every core fault has
an entry the spec describes (R209, R210), so it is a NEXT state whose `run` is `faulted` (log entry 1, unsafe for a
reader who takes `next` as success). -/
inductive Fault where
  deriving DecidableEq, Repr

/-- Why the loader has no image for the block: a LoadError, which is no core fault (spec/60_exceptions.md R212). -/
inductive LoadError where
  /-- The input source is missing (R212, I11). -/
  | sourceMissing
  /-- The input source is unreadable (R212, I11). -/
  | sourceUnreadable
  /-- The image has more than 256 bytes (spec/70_reset_and_hazards.md R242, D14, I10). -/
  | imageTooLong (length : Nat)
  deriving DecidableEq, Repr

/-- The reasons the model gives no next state. -/
inductive Refusal where
  /-- Raised by an arm of `exec` whose instruction has no meaning yet; no arm does (safe). -/
  | notModelled (mnemonic : String)
  /-- Raised by `load`, never by a step: a LoadError, and the block does not start (R212, R242); safe. -/
  | loadError (reason : LoadError)
  /-- Raised by `load`, never by a step: the machine is not the constructed one, so the load interface is closed
  (spec/00_scope.md R6, D24); safe (log entry 17). -/
  | loadNotBeforeFirstCycle
  deriving DecidableEq, Repr

/-- What a step, a meaning or the load answers. -/
abbrev Result := Host.Outcome State Fault Refusal

/-- The constructed machine before the program load, for any value of the parameter `SP_RESET` (R30, R240, D16).
The latch is unspecified there; the model names 0 (DESIGN CHOICE, log entry 3). -/
def State.resetWith (spReset : Byte) : State where
  mem   := []
  regs  := #v[0#8, 0#8, 0#8, 0#8, 0#8, 0#8, 0#8, spReset]
  pc    := Config.pcReset
  run   := .running
  out   := []
  latch := ⟨0#8, 0#8, 0#8⟩

/-- The machine right after reset, `SP_RESET` at its default (R30, R240). -/
def State.reset : State := State.resetWith Config.spReset

end Sys2Proof.Machine
end

