-- ==== Sys2Proof/Machine/Ops.lean ====
section
/-!
DEFINITION. The named operations over memory, registers, output and run state that every meaning is built from
(spec/00_scope.md R9 to R13, spec/20_memory.md, spec/60_exceptions.md).
-/
namespace Sys2Proof.Machine

/-! ## Memory -/

/-- What an address that no cell lists reads as: the reset contents of memory (R30). -/
def unlistedByte : Byte := 0#8

/-- One byte of memory: the listed value, or the reset value (R49). -/
def Memory.read : Memory → Nat → Byte
  | [], _ => unlistedByte
  | c :: m, a => if c.1 = a then c.2 else Memory.read m a

/-- Memory with no entry for an address. -/
def Memory.remove (m : Memory) (a : Nat) : Memory := m.filter fun c => c.1 != a

/-- Memory with an entry put before the first cell of a higher address. -/
def Memory.insert : Memory → Nat → Byte → Memory
  | [], a, v => [(a, v)]
  | c :: m, a, v => if a < c.1 then (a, v) :: c :: m else c :: Memory.insert m a v

/-- Memory with one byte stored, kept in the canonical form: storing what an unlisted address reads as leaves no
entry. -/
def Memory.write (m : Memory) (a : Nat) (v : Byte) : Memory :=
  if v = unlistedByte then m.remove a else (m.remove a).insert a v

/-- The cells stand at strictly rising addresses from `lo` on, inside the address space, and none holds what an
unlisted address reads as. -/
def Memory.wfFrom : Nat → Memory → Bool
  | _, [] => true
  | lo, c :: m =>
    decide (lo ≤ c.1) && decide (c.1 < 256) && decide (c.2 ≠ unlistedByte) && Memory.wfFrom (c.1 + 1) m

/-- The canonical form of memory. -/
def Memory.wf (m : Memory) : Bool := Memory.wfFrom 0 m

/-- Memory with consecutive bytes stored from an address on. -/
def Memory.writeList : Memory → Nat → List Byte → Memory
  | m, _, [] => m
  | m, a, b :: bs => Memory.writeList (Memory.write m a b) (a + 1) bs

/-- `MemRead(addr, 1)`: the byte, or `AddressFault(MEMORY, addr)` outside 0..255 (R10, R41). -/
def memRead (a : Nat) (s : State) : Except FaultRecord Byte :=
  if a < 256 then .ok (s.mem.read a) else .error (.addressFault .memory a)

/-- `MemWrite(addr, 1, v)`: the byte stored, or `AddressFault(MEMORY, addr)` outside 0..255 (R10, R41). -/
def memWrite (a : Nat) (v : Byte) (s : State) : Except FaultRecord State :=
  if a < 256 then .ok { s with mem := s.mem.write a v } else .error (.addressFault .memory a)

/-! ## Registers -/

/-- `x[r]` (R9, R20). -/
def State.readReg (s : State) (r : Fin 8) : Byte := s.regs[r]

/-- `x[r] <- v` (R9, R20): no register is hard-wired, and writing register 7 is not checked (R22). -/
def State.writeReg (s : State) (r : Fin 8) (v : Byte) : State :=
  { s with regs := s.regs.set r v }

/-- `SP`, another name for `x[7]` (R22). -/
def State.sp (s : State) : Byte := s.readReg Config.spIndex

/-! ## Program counter, output and halt -/

/-- The PC advance `pc <- pc + 1 + IR[7:6]` (R82), `IR` being the instruction's opcode byte: unbounded addition
(R24; log entry 7). -/
def advance (i : Instr) (s : State) : State := { s with pc := s.pc + 1 + operandCount (opcodeOf i) }

/-- `pc <- target` with an 8-bit target: how CALL and RET set the PC (R24, R160, R161). -/
def jumpTo (target : Byte) (s : State) : State := { s with pc := target.toNat }

/-- `emit(v)`: the value appended to the output trace (R13, R28). -/
def emit (v : Byte) (s : State) : State := { s with out := s.out ++ [v] }

/-- `halt`: `run <- HALTED` (R12). -/
def halt (s : State) : State := { s with run := .halted }

/-! ## Faults -/

/-- Fault entry, the one shared operation: `run <- FAULTED(kind, info)` and nothing else; nothing is saved and there is
no handler (R11, R209, R210). There is no return from a fault to stand beside it (R211). -/
def raise (f : FaultRecord) (s : State) : State := { s with run := .faulted f }

/-- How a handler ends: its state, or, when it raised, the state the handler began in with the fault entered, so that
no write of the handler is kept (R11, R209). -/
def complete (s : State) : Except FaultRecord State → Result
  | .ok t => .next t
  | .error f => .next (raise f s)

/-- The numeric code of a fault kind (R200, D11). -/
def FaultRecord.code : FaultRecord → Nat
  | .decodeFault _ _ => 1
  | .addressFault .fetch _ => 2
  | .addressFault .operandFetch _ => 3
  | .addressFault .regIndex _ => 4
  | .addressFault .spRange _ => 5
  | .addressFault .memory _ => 6
  | .aluUnsupported _ => 7

end Sys2Proof.Machine
end

