-- ==== Sys2Proof/Machine/Operands.lean ====
section
/-!
DEFINITION. The operand forms: the register operand and the stack-pointer forms, pre-decrement for a write and
post-increment for a read (spec/30_encoding.md R63, the opening of spec/42_stack.md). An immediate operand is the byte itself.
-/
namespace Sys2Proof.Machine

/-- A register operand: the register it names, or `AddressFault(REG_INDEX, value)` for 8..255 (R63, R202). -/
def regIndex (b : Byte) : Except FaultRecord (Fin 8) :=
  if h : b.toNat < 8 then .ok ⟨b.toNat, h⟩ else .error (.addressFault .regIndex b.toNat)

/-- `SP -= 1` of PUSH and CALL: `AddressFault(SP_RANGE, 0)` when it would go below 0 (R140, R160, R204). -/
def decrementSp (s : State) : Except FaultRecord State :=
  if s.sp.toNat = 0 then .error (.addressFault .spRange 0) else .ok (s.writeReg Config.spIndex (s.sp - 1#8))

/-- `SP += 1` of POP and RET: `AddressFault(SP_RANGE, 255)` when it would go above 255 (R141, R161, R204). -/
def incrementSp (s : State) : Except FaultRecord State :=
  if s.sp.toNat = 255 then .error (.addressFault .spRange 255) else .ok (s.writeReg Config.spIndex (s.sp + 1#8))

/-- The address of the stack top (R47). -/
def stackTop (s : State) : Nat := s.sp.toNat

end Sys2Proof.Machine
end

