-- ==== Sys2Proof/Machine/Alu.lean ====
section
/-!
DEFINITION. ADD and MUL (spec/41_alu.md).
-/
namespace Sys2Proof.Machine

/-- The shape ADD and MUL share: both register operands are checked, `a` first (R208), then `x[a]` takes the result
of the two register values. -/
def binaryHandler (op : Byte → Byte → Byte) (a b : Byte) (s : State) : Except FaultRecord State := do
  let r ← regIndex a
  let q ← regIndex b
  return s.writeReg r (op (s.readReg r) (s.readReg q))

/-- ADD `Ra, Rb` (R120): `x[a] <- (x[a] + x[b]) mod 256`. -/
def execAdd (a b : Byte) (s : State) : Result :=
  complete s do
    let t ← binaryHandler addResult a b s
    return advance (.add a b) t

/-- MUL `Ra, Rb` (R121): `x[a] <- (x[a] * x[b]) mod 256`. -/
def execMul (a b : Byte) (s : State) : Result :=
  complete s do
    let t ← binaryHandler mulResult a b s
    return advance (.mul a b) t

end Sys2Proof.Machine
end

