-- ==== Sys2Proof/Machine/Control.lean ====
section
/-!
DEFINITION. HLT, LDI and PRN (spec/40_control_io.md).
-/
namespace Sys2Proof.Machine

/-- HLT (R101): `run <- HALTED`; `pc` keeps the address of the HLT (D9). -/
def execHlt (s : State) : Result := complete s (.ok (halt s))

/-- LDI `Ra, imm` (R102): `x[a] <- imm`; register 7 is not checked (D6). -/
def execLdi (a imm : Byte) (s : State) : Result :=
  complete s do
    let r ← regIndex a
    return advance (.ldi a imm) (s.writeReg r imm)

/-- PRN `Ra` (R103): the value of `x[a]` is appended to the output trace. -/
def execPrn (a : Byte) (s : State) : Result :=
  complete s do
    let r ← regIndex a
    return advance (.prn a) (emit (s.readReg r) s)

end Sys2Proof.Machine
end

