-- ==== Sys2Proof/Machine/Stack.lean ====
section
/-!
DEFINITION. PUSH and POP (spec/42_stack.md). Statements run in the source's order and see earlier writes (R9, D8).
-/
namespace Sys2Proof.Machine

/-- PUSH `Ra` (R140): `SP -= 1; M[SP] <- x[a]`, `x[a]` read after the decrement. -/
def execPush (a : Byte) (s : State) : Result :=
  complete s do
    let r ← regIndex a
    let lowered ← decrementSp s
    let stored ← memWrite (stackTop lowered) (lowered.readReg r) lowered
    return advance (.push a) stored

/-- POP `Ra` (R141): `x[a] <- M[SP]; SP += 1`. For `a = 7` the increment, and its range check, see the popped value. -/
def execPop (a : Byte) (s : State) : Result :=
  complete s do
    let r ← regIndex a
    let v ← memRead (stackTop s) s
    let raised ← incrementSp (s.writeReg r v)
    return advance (.pop a) raised

end Sys2Proof.Machine
end

