-- ==== Sys2Proof/Machine/Subroutine.lean ====
section
/-!
DEFINITION. CALL and RET (spec/43_subroutine.md). Both set the PC themselves (R82).
-/
namespace Sys2Proof.Machine

/-- The return address CALL stores, `pc + 2` as one byte (R160). In a cycle it is at most 255, because the operand fetch has
succeeded; for a larger `pc`, which no step gives a CALL, the low byte is stored (DESIGN CHOICE, log entry 6). -/
def returnAddress (s : State) : Byte := BitVec.ofNat 8 (s.pc + 2)

/-- CALL `Ra` (R160): `SP -= 1; M[SP] <- pc + 2; pc <- x[a]`, `x[a]` read after the decrement. -/
def execCall (a : Byte) (s : State) : Result :=
  complete s do
    let r ← regIndex a
    let lowered ← decrementSp s
    let stored ← memWrite (stackTop lowered) (returnAddress lowered) lowered
    return jumpTo (stored.readReg r) stored

/-- RET (R161): `pc <- M[SP]; SP += 1`. -/
def execRet (s : State) : Result :=
  complete s do
    let raised ← incrementSp s
    let target ← memRead (stackTop s) s
    return jumpTo target raised

end Sys2Proof.Machine
end

