-- ==== Sys2Proof/Machine/Engine.lean ====
section
/-!
DEFINITION. The fetch-decode-execute cycle (spec/30_encoding.md R80 to R83).
-/
namespace Sys2Proof.Machine

/-- One byte of the fetch: outside memory it raises the fault of its own kind (R80, R203). -/
def fetchByte (kind : AddressKind) (a : Nat) (s : State) : Except FaultRecord Byte :=
  if 255 < a then .error (.addressFault kind a) else memRead a s

/-- The state after one byte of the fetch is put into the latch, or the state after its fault is entered. -/
def latchByte (kind : AddressKind) (a : Nat) (put : Byte → Latch → Latch) (s : State) : Except State State :=
  match fetchByte kind a s with
  | .ok b => .ok { s with latch := put b s.latch }
  | .error f => .error (raise f s)

/-- Step 1 of the cycle: `IR <- M[pc]` (R80). -/
def fetchOpcode (s : State) : Except State State :=
  latchByte .fetch s.pc (fun b l => { l with ir := b }) s

/-- Step 2, first byte: `opA <- M[pc + 1]`, used or not (R80). -/
def fetchOperandA (s : State) : Except State State :=
  latchByte .operandFetch (s.pc + 1) (fun b l => { l with opA := b }) s

/-- Step 2, second byte: `opB <- M[pc + 2]`, used or not (R80). -/
def fetchOperandB (s : State) : Except State State :=
  latchByte .operandFetch (s.pc + 2) (fun b l => { l with opB := b }) s

/-- Steps 1 and 2 of the cycle, in the order of R80; a fault ends them (log entry 4 for the latch). -/
def fetch (s : State) : Except State State := do
  let s₁ ← fetchOpcode s
  let s₂ ← fetchOperandA s₁
  fetchOperandB s₂

/-- The three latched bytes, as the decoder takes them. -/
def Latch.bytes (l : Latch) : List Byte := [l.ir, l.opA, l.opB]

/-- Steps 3 to 5 of the cycle on the latched bytes: decode, or `DecodeFault(pc, IR)`; then the instruction's meaning, which
advances the PC where R82 says so (R80). -/
def decodeAndExecute (s : State) : Result :=
  match decode s.latch.bytes with
  | .ok (i, _) => exec i s
  | .error _ => .next (raise (.decodeFault s.pc s.latch.ir) s)

/-- One cycle (R80). -/
def cycle (s : State) : Result :=
  match fetch s with
  | .ok fetched => decodeAndExecute fetched
  | .error stopped => .next stopped

/-- What the engine does next: a cycle while RUNNING; a HALTED or FAULTED machine performs none and stays as it is
(R83, R211, R217; log entry 2). -/
def engine (s : State) : Result :=
  match s.run with
  | .running => cycle s
  | .halted => .next s
  | .faulted _ => .next s

/-- The bytes of an opcode-table word put where the next fetch reads them, in a machine that will fetch: RUNNING, with the
PC left alone where all three fetched bytes fit (0..253, R45) and at 0 otherwise (log entry 9). -/
def placeWord (bytes : List Byte) (s : State) : State :=
  let start := if s.pc ≤ 253 then s.pc else Config.pcReset
  { s with mem := s.mem.writeList start bytes, pc := start, run := .running }

end Sys2Proof.Machine
end

