-- ==== Sys2Proof/Machine/Step.lean ====
section
/-!
DEFINITION. One step of the model: one cycle of the engine (spec/30_encoding.md R80, R83).
-/
namespace Sys2Proof.Machine

/-- One step: a cycle while RUNNING (R83). -/
def step : State → Host.Outcome State Fault Refusal := engine

/-- The state with the instruction of an opcode-table word stored where the next step fetches it. -/
def State.withFetchWord (s : State) (nbits w : Nat) : State := placeWord (tableBytes nbits w) s

end Sys2Proof.Machine
end

