-- ==== Sys2Proof/Machine/Assembler.lean ====
section
/-!
DEFINITION. The assembler syntax of spec/30_encoding.md R85 and R86, over lists of characters: the plain form
(LDI R0,200) and the bracketed form ([LDI,0,200]). Choices R85 leaves open are in log entry 10.
-/
namespace Sys2Proof.Machine

/-- The value of a digit in a base up to 16. -/
def digitValue (base : Nat) (c : Char) : Option Nat :=
  let n := c.toNat
  let v := if 48 ≤ n ∧ n ≤ 57 then n - 48
    else if 97 ≤ n ∧ n ≤ 102 then n - 87
    else if 65 ≤ n ∧ n ≤ 70 then n - 55
    else base
  if v < base then some v else none

/-- Digits after a number read so far; a number above 255 is none (R85). -/
def digitsFrom (base : Nat) : Nat → List Char → Option Nat
  | acc, [] => some acc
  | acc, c :: cs =>
    match digitValue base c with
    | none => none
    | some v => if acc * base + v ≤ 255 then digitsFrom base (acc * base + v) cs else none

/-- One or more digits. -/
def digits (base : Nat) : List Char → Option Byte
  | [] => none
  | cs => (digitsFrom base 0 cs).map (BitVec.ofNat 8)

/-- An immediate: 0..255 in decimal, in hexadecimal with 0x, or in binary with 0b (R85). -/
def parseNumber : List Char → Option Byte
  | '0' :: 'x' :: cs => digits 16 cs
  | '0' :: 'b' :: cs => digits 2 cs
  | cs => digits 10 cs

/-- A register: R0 .. R7 (R85). -/
def parseRegister : List Char → Option Byte
  | ['R', c] => (digitValue 8 c).map (BitVec.ofNat 8)
  | _ => none

/-- An operand of the plain form, by its kind (R85). -/
def plainOperand : OperandKind → List Char → Option Byte
  | .reg => parseRegister
  | .imm => parseNumber

/-- An operand of the bracketed form: its byte value, whatever its kind (R85). -/
def bracketOperand : OperandKind → List Char → Option Byte
  | .reg => parseNumber
  | .imm => parseNumber

/-- Text without the spaces at its two ends. -/
def trimSpaces (cs : List Char) : List Char :=
  ((cs.dropWhile (· == ' ')).reverse.dropWhile (· == ' ')).reverse

/-- Text cut at its commas. -/
def splitCommas : List Char → List (List Char)
  | [] => [[]]
  | c :: cs =>
    if c = ',' then [] :: splitCommas cs
    else match splitCommas cs with
      | [] => [[c]]
      | w :: ws => (c :: w) :: ws

/-- Operands against the kinds of a row: as many words as kinds, each of its kind. -/
def parseOperands (operand : OperandKind → List Char → Option Byte) :
    List OperandKind → List (List Char) → Option (List Byte)
  | [], [] => some []
  | k :: ks, w :: ws =>
    match operand k (trimSpaces w), parseOperands operand ks ws with
    | some b, some bs => some (b :: bs)
    | _, _ => none
  | _, _ => none

/-- A mnemonic of the table and its operands as an instruction; the nine mnemonics are the whole language (R86). -/
def parseNamed (operand : OperandKind → List Char → Option Byte) (name : List Char) (words : List (List Char)) :
    Option Instr :=
  match opcodeTable.find? fun row => row.name == name with
  | none => none
  | some row => (parseOperands operand row.kinds words).map fun bs => row.build (bs.getD 0 0#8) (bs.getD 1 0#8)

/-- The words of an operand list; empty text is no words. -/
def operandWords : List Char → List (List Char)
  | [] => []
  | cs => splitCommas cs

/-- The plain form: the mnemonic, then the operands separated by commas (R85). -/
def parsePlain (cs : List Char) : Option Instr :=
  parseNamed plainOperand (cs.takeWhile (· != ' ')) (operandWords (trimSpaces (cs.dropWhile (· != ' '))))

/-- The inside of the bracketed form: the mnemonic and the byte values, separated by commas (R85). That spaces may stand around the
mnemonic too is the model's choice (DESIGN CHOICE, log entry 10). -/
def parseBracketed (cs : List Char) : Option Instr :=
  match splitCommas cs with
  | [] => none
  | name :: words => parseNamed bracketOperand (trimSpaces name) words

/-- One statement in either form (R85). -/
def parseStatement (text : List Char) : Option Instr :=
  match trimSpaces text with
  | '[' :: cs =>
    match cs.reverse with
    | ']' :: inside => parseBracketed inside.reverse
    | _ => none
  | cs => parsePlain cs

/-- A statement assembles to its opcode byte followed by its operand bytes in order (R85). -/
def assemble (text : List Char) : Option (List Byte) := (parseStatement text).map encode

/-- The digits of a byte in base 10, without leading zeros. -/
def decimalDigits (b : Byte) : List Char :=
  let n := b.toNat
  let digit (k : Nat) : Char := Char.ofNat (48 + k % 10)
  if n < 10 then [digit n]
  else if n < 100 then [digit (n / 10), digit n]
  else [digit (n / 100), digit (n / 10), digit n]

/-- One operand in the plain form. -/
def operandText : OperandKind → Byte → List Char
  | .reg, b => 'R' :: decimalDigits b
  | .imm, b => decimalDigits b

/-- Operands in the plain form, separated by commas. -/
def operandsText : List OperandKind → List Byte → List Char
  | [k], [b] => operandText k b
  | k :: ks, b :: bs => operandText k b ++ ',' :: operandsText ks bs
  | _, _ => []

/-- Byte values, each after a comma. -/
def valuesText : List Byte → List Char
  | [] => []
  | b :: bs => ',' :: decimalDigits b ++ valuesText bs

/-- An instruction written in the bracketed form of R85. -/
def bracketText (i : Instr) : List Char :=
  match lookupOpcode (opcodeOf i) with
  | none => []
  | some row => '[' :: row.name ++ valuesText (operandsOf i) ++ [']']

/-- An instruction written in the plain form of R85. -/
def instructionText (i : Instr) : List Char :=
  match lookupOpcode (opcodeOf i) with
  | none => []
  | some row =>
    match operandsOf i with
    | [] => row.name
    | bs => row.name ++ ' ' :: operandsText row.kinds bs

end Sys2Proof.Machine
end

