-- ==== Sys2Proof/Machine/HostInterface.lean ====
section
/-!
DEFINITION. The three interfaces of the block with its host: load, output and status (spec/00_scope.md R6).
-/
namespace Sys2Proof.Machine

/-- What the loader finds at its input source: nothing, something it cannot read, or a program image (R212, R242). -/
inductive ImageSource where
  /-- There is no input source. -/
  | missing
  /-- The input source cannot be read. -/
  | unreadable
  /-- The ordered byte sequence the loader hands the core. -/
  | image (bytes : List Byte)
  deriving DecidableEq, Repr

/-- The machine is as construction left it, for some `SP_RESET` and whatever the latch holds (R30, R240). No step leads to
such a machine, so its first cycle is still to come (log entry 17). -/
def constructed (s : State) : Bool := s = { State.resetWith s.sp with latch := s.latch }

/-- The image written from address 0 on, in order and with no gaps; more than 256 bytes are a LoadError (R242, D14). -/
def loadImage (bytes : List Byte) (s : State) : Result :=
  if bytes.length ≤ 256 then .next { s with mem := s.mem.writeList Config.loadBase bytes }
  else .refused (.loadError (.imageTooLong bytes.length))

/-- The program load, on the constructed machine and so before its first cycle only (R6, R242, D24). After a LoadError the
block does not start (R212, I10, I11). -/
def load (source : ImageSource) (s : State) : Result :=
  if constructed s then
    match source with
    | .missing => .refused (.loadError .sourceMissing)
    | .unreadable => .refused (.loadError .sourceUnreadable)
    | .image bytes => loadImage bytes s
  else .refused .loadNotBeforeFirstCycle

/-- What the host reads on the output interface: one value per PRN, in program order (R104). -/
def outputInterface (s : State) : List Byte := s.out

/-- What the host reads on the status interface: the run state with its fault record (R27, R210). -/
def statusInterface (s : State) : RunState := s.run

end Sys2Proof.Machine
end

