-- ==== Sys2Proof/WellFormed.lean ====
section
/-!
DEFINITION. When an instruction keeps the program's obligation "use register operands 0..7"
(spec/70_reset_and_hazards.md R243, spec/30_encoding.md R63). An instruction that breaks it still decodes
and executes: its handler raises `AddressFault(REG_INDEX)`.
-/
namespace Sys2Proof

/-- The operand byte names a register, that is, it is 0..7 (R63). -/
def isRegister (b : Byte) : Bool := b.toNat < 8

/-- Every register operand of the instruction names a register; immediates are any byte (R63). -/
def wellFormed : Instr → Bool
  | .hlt => true
  | .ldi a _ => isRegister a
  | .prn a => isRegister a
  | .add a b => isRegister a && isRegister b
  | .mul a b => isRegister a && isRegister b
  | .push a => isRegister a
  | .pop a => isRegister a
  | .call a => isRegister a
  | .ret => true

end Sys2Proof
end

