-- ==== Sys2Proof/Safety.lean ====
section
/-!
DEFINITION. What counts as a safe state and how a run ends (spec/70_reset_and_hazards.md R244), in the terms the statements use.
-/
namespace Sys2Proof.Machine

/-- The byte is one of the nine opcodes (spec/30_encoding.md R64, R80). -/
def isOpcode (b : Byte) : Bool :=
  [0x01#8, 0x82#8, 0x47#8, 0xA0#8, 0xA2#8, 0x45#8, 0x46#8, 0x50#8, 0x11#8].contains b

/-- The records the table of spec/60_exceptions.md R200 allows for a fault at address `pc`: what is recorded, and that `pc`
still holds the address of the faulting instruction (R209). -/
def FaultRecord.legalAt (pc : Nat) : FaultRecord → Prop
  | .decodeFault a b => a = pc ∧ pc ≤ 253 ∧ isOpcode b = false
  | .addressFault .fetch v => v = 256 ∧ pc = 256
  | .addressFault .operandFetch v => v = 256 ∧ (pc = 254 ∨ pc = 255)
  | .addressFault .regIndex v => 8 ≤ v ∧ v ≤ 255 ∧ pc ≤ 253
  | .addressFault .spRange v => (v = 0 ∨ v = 255) ∧ pc ≤ 253
  | .addressFault .memory _ => False
  | .aluUnsupported _ => False

/-- The run state is one the machine can be in at address `pc`. -/
def RunState.legalAt (pc : Nat) : RunState → Prop
  | .running => True
  | .halted => pc ≤ 253
  | .faulted f => f.legalAt pc

/-- The invariant of the machine: memory in canonical form, the PC at most 256 (spec/10_state.md R25), and a run state whose
fault record, if any, is one of R200. -/
def State.Inv (s : State) : Prop := s.mem.wf = true ∧ s.pc ≤ 256 ∧ s.run.legalAt s.pc

/-- The first fault condition of a register operand, in the order given (R202, R208). -/
def regIndexFault : List Byte → Option FaultRecord
  | [] => none
  | b :: bs => if 8 ≤ b.toNat then some (.addressFault .regIndex b.toNat) else regIndexFault bs

/-- The value POP's increment would start from: the popped byte for register 7, the stack pointer otherwise (R141). -/
def popIncrementsFrom (a : Byte) (s : State) : Byte := if a.toNat = 7 then s.mem.read s.sp.toNat else s.sp

/-- The stack-pointer range condition of an instruction (the last column of spec/60_exceptions.md R207). -/
def spRangeFault (s : State) : Instr → Option FaultRecord
  | .push _ => if s.sp.toNat = 0 then some (.addressFault .spRange 0) else none
  | .call _ => if s.sp.toNat = 0 then some (.addressFault .spRange 0) else none
  | .pop a => if (popIncrementsFrom a s).toNat = 255 then some (.addressFault .spRange 255) else none
  | .ret => if s.sp.toNat = 255 then some (.addressFault .spRange 255) else none
  | .hlt => none
  | .ldi _ _ => none
  | .prn _ => none
  | .add _ _ => none
  | .mul _ _ => none

/-- The operand bytes an instruction uses as register indices, in the order they are checked (the first two columns of R207). -/
def registerOperands : Instr → List Byte
  | .hlt => []
  | .ldi a _ => [a]
  | .prn a => [a]
  | .add a b => [a, b]
  | .mul a b => [a, b]
  | .push a => [a]
  | .pop a => [a]
  | .call a => [a]
  | .ret => []

/-- The fault a handler raises: REG_INDEX before SP_RANGE (R208, points 4 and 5). -/
def handlerFault (i : Instr) (s : State) : Option FaultRecord :=
  match regIndexFault (registerOperands i) with
  | some f => some f
  | none => spRangeFault s i

/-- The fault a cycle from this state raises, as the list of spec/60_exceptions.md R208 orders the conditions. -/
def firstFault (s : State) : Option FaultRecord :=
  if 255 < s.pc then some (.addressFault .fetch s.pc)
  else if 255 < s.pc + 1 then some (.addressFault .operandFetch (s.pc + 1))
  else if 255 < s.pc + 2 then some (.addressFault .operandFetch (s.pc + 2))
  else match decode [s.mem.read s.pc, s.mem.read (s.pc + 1), s.mem.read (s.pc + 2)] with
    | .error _ => some (.decodeFault s.pc (s.mem.read s.pc))
    | .ok (i, _) => handlerFault i s

/-- What an address reads as once `v` is stored at address `a` in memory `m` (R49). -/
def readAfterStore (m : Memory) (a : Nat) (v : Byte) (b : Nat) : Byte := if b = a then v else m.read b

/-- A register the instruction writes (the last column of spec/10_state.md R21). -/
def writesRegister (r : Fin 8) : Instr → Bool
  | .hlt => false
  | .ldi a _ => decide (a.toNat = r.val)
  | .prn _ => false
  | .add a _ => decide (a.toNat = r.val)
  | .mul a _ => decide (a.toNat = r.val)
  | .push _ => decide (r = 7)
  | .pop a => decide (a.toNat = r.val) || decide (r = 7)
  | .call _ => decide (r = 7)
  | .ret => decide (r = 7)

/-- A register the instruction reads (the middle column of spec/10_state.md R21). -/
def readsRegister (r : Fin 8) : Instr → Bool
  | .hlt => false
  | .ldi _ _ => false
  | .prn a => decide (a.toNat = r.val)
  | .add a b => decide (a.toNat = r.val) || decide (b.toNat = r.val)
  | .mul a b => decide (a.toNat = r.val) || decide (b.toNat = r.val)
  | .push a => decide (r = 7) || decide (a.toNat = r.val)
  | .pop _ => decide (r = 7)
  | .call a => decide (r = 7) || decide (a.toNat = r.val)
  | .ret => decide (r = 7)

/-- The run from a state ends normally: HALTED after some number of cycles (R244, point 1). -/
def endsNormally (s : State) : Prop := ∃ k t, core.run k s = .next t ∧ t.run = .halted

/-- The run from a state ends in this fault: FAULTED after some number of cycles (R244, point 2). It is never success. -/
def endsInFault (s : State) (f : FaultRecord) : Prop := ∃ k t, core.run k s = .next t ∧ t.run = .faulted f

/-- The run from a state has no end: RUNNING after every number of cycles (R244, point 3). -/
def neverEnds (s : State) : Prop := ∀ k, ∃ t, core.run k s = .next t ∧ t.run = .running

end Sys2Proof.Machine
end

