-- ==== Sys2Proof/Certificates/Slice0/Obligations.lean ====
section
/-!
DEFINITION. The statements about the machine, each from a numbered rule of the spec or from sections of it. Where a statement
rests on a choice (a decision D<n> of spec/92_eei_decisions.md, a derivation the spec marks as its own, or a log entry of this
model) its docstring says so.
-/

open Sys2Proof Sys2Proof.Machine

/-! ## Encoding -/

/-- Decode and encode agree in both directions, for every instruction with every operand byte, well-formed or not: bytes decode to an
instruction exactly when they begin with its encoding, and decoding leaves the bytes after it (R60, R64, R67). -/
def Obligations.DecodeAcceptsExactlyEncodings : Prop :=
  ∀ (bytes rest : List Byte) (i : Instr), decode bytes = .ok (i, rest) ↔ bytes = encode i ++ rest

/-- Every byte outside the nine opcodes is refused as an undefined opcode whatever follows it; every one of the nine, with the two
candidate operand bytes, is an instruction (R64, R66). -/
def Obligations.ExactlyNineOpcodeBytesDecode : Prop :=
  ∀ (ir : Byte), (isOpcode ir = false → ∀ rest, decode (ir :: rest) = .error (.undefinedOpcode ir)) ∧
    (isOpcode ir = true → ∀ a b, ∃ i rest, decode [ir, a, b] = .ok (i, rest) ∧ opcodeOf i = ir)

/-- Words written out from the encodings of R64 decode to the instructions they stand for, one of every family. -/
def Obligations.TableWordsDecode : Prop :=
  decodeTableWord 8 0b00000001 = some .hlt ∧
  decodeTableWord 24 0b11001000_00000011_10000010 = some (.ldi 3 200) ∧
  decodeTableWord 24 0b00000001_00000110_10100000 = some (.add 6 1) ∧
  decodeTableWord 16 0b00000111_01000101 = some (.push 7) ∧
  decodeTableWord 16 0b00000010_01010000 = some (.call 2) ∧
  decodeTableWord 8 0b00010001 = some .ret ∧
  decodeTableWord 8 0b00000000 = none

/-- The assembler syntax of R85 and the encoding agree: the plain text of a well-formed instruction, and the bracketed text of any
instruction, assemble to its encoding. That the texts are read as they are rests on D18 and log entry 10. -/
def Obligations.AssemblyTextAssemblesToEncoding : Prop :=
  (∀ i : Instr, wellFormed i = true → assemble (instructionText i) = some (encode i)) ∧
  (∀ i : Instr, assemble (bracketText i) = some (encode i))

/-! ## The cycle -/

/-- A step runs the decoded instruction: in a running machine whose three bytes at the PC decode, a step is the meaning of that
instruction with the three bytes latched (R80). -/
def Obligations.StepRunsDecodedInstruction : Prop :=
  ∀ (s : State) (i : Instr) (rest : List Byte), s.run = .running → s.pc ≤ 253 →
    decode [s.mem.read s.pc, s.mem.read (s.pc + 1), s.mem.read (s.pc + 2)] = .ok (i, rest) →
    step s = exec i { s with latch := ⟨s.mem.read s.pc, s.mem.read (s.pc + 1), s.mem.read (s.pc + 2)⟩ }

/-- The fetch faults: past address 255 at the opcode, or at a candidate operand byte whether or not the instruction uses it, and
nothing but the run state and the hidden latch changes (R203; the latch is log entry 4). -/
def Obligations.FetchOutsideMemoryFaults : Prop :=
  ∀ (s : State), s.run = .running →
    (255 < s.pc → ∃ l, step s = .next { s with run := .faulted (.addressFault .fetch s.pc), latch := l }) ∧
    (s.pc = 255 → ∃ l, step s = .next { s with run := .faulted (.addressFault .operandFetch (s.pc + 1)), latch := l }) ∧
    (s.pc = 254 → ∃ l, step s = .next { s with run := .faulted (.addressFault .operandFetch (s.pc + 2)), latch := l })

/-- A fetched byte that is none of the nine opcodes raises `DecodeFault` with its address and value (R201). -/
def Obligations.UndefinedOpcodeRaisesDecodeFault : Prop :=
  ∀ (s : State), s.run = .running → s.pc ≤ 253 → isOpcode (s.mem.read s.pc) = false →
    ∃ l, step s = .next { s with run := .faulted (.decodeFault s.pc (s.mem.read s.pc)), latch := l }

/-- A stopped machine performs no cycle, however many steps are asked for (R83, R211, R217). That the model answers the unchanged
state is the model's choice, log entry 2. -/
def Obligations.StoppedMachineStaysAsItIs : Prop :=
  ∀ (s : State), s.run ≠ .running → ∀ k, core.run k s = .next s

/-- Faults are precise: a faulting step keeps every register, every memory cell, the PC and the output (R209, which the spec marks as
its own choice, D7; the hidden latch is log entry 4). -/
def Obligations.FaultsArePrecise : Prop :=
  ∀ (s t : State) (f : FaultRecord), s.run = .running → step s = .next t → t.run = .faulted f →
    t.regs = s.regs ∧ t.mem = s.mem ∧ t.pc = s.pc ∧ t.out = s.out

/-- The fault of a cycle is the first condition of the list of R208, with the operands and the stack-pointer conditions of R207, and
there is none exactly when no condition holds. The order is the spec's own choice, D19. -/
def Obligations.CycleFaultIsTheFirstCondition : Prop :=
  ∀ (s t : State), s.run = .running → step s = .next t →
    ∀ f, t.run = .faulted f ↔ firstFault s = some f

/-- From no running state does a step raise MEMORY or AluUnsupported (R205 and R41, derived in the spec; R206 and R124, D17). -/
def Obligations.MemoryAndAluFaultsAreNeverRaised : Prop :=
  ∀ (s t : State), s.run = .running → step s = .next t →
    (∀ a, t.run ≠ .faulted (.addressFault .memory a)) ∧ (∀ op, t.run ≠ .faulted (.aluUnsupported op))

/-- Only HLT halts: a running machine is HALTED after a step exactly when the fetched opcode is HLT and its fetch fits (R27, R101). -/
def Obligations.OnlyHltHalts : Prop :=
  ∀ (s t : State), s.run = .running → step s = .next t →
    (t.run = .halted ↔ s.pc ≤ 253 ∧ s.mem.read s.pc = 0x01#8)

/-- The PC changes in exactly three ways (R24, R82): a completed instruction other than HLT, CALL and RET adds `1 + IR[7:6]`; CALL
sets the PC to the value its register operand has after the decrement; RET sets it to the byte at the stack top; and a step that
leaves RUNNING keeps it (HLT by D9, a fault by D7). -/
def Obligations.PcChangesInExactlyThreeWays : Prop :=
  ∀ (s t : State), s.run = .running → step s = .next t →
    (t.run = .running → s.mem.read s.pc ≠ 0x50#8 → s.mem.read s.pc ≠ 0x11#8 →
      t.pc = s.pc + 1 + bitsOf 7 6 (s.mem.read s.pc)) ∧
    (t.run = .running → s.mem.read s.pc = 0x50#8 →
      ∃ r : Fin 8, (s.mem.read (s.pc + 1)).toNat = r.val ∧ t.pc = (t.readReg r).toNat) ∧
    (t.run = .running → s.mem.read s.pc = 0x11#8 → t.pc = (s.mem.read s.sp.toNat).toNat) ∧
    (t.run ≠ .running → t.pc = s.pc)

/-- The output trace grows only by PRN, and then by the value of the register it names (R28, R103, R104). -/
def Obligations.OutputGrowsOnlyByPrn : Prop :=
  ∀ (s t : State), s.run = .running → step s = .next t →
    t.out = s.out ∨
      (s.mem.read s.pc = 0x47#8 ∧ ∃ r : Fin 8, (s.mem.read (s.pc + 1)).toNat = r.val ∧
        t.out = s.out ++ [s.readReg r])

/-- The latch is not visible between cycles: what it held makes no difference to anything else a step leaves, and none at all to a
step whose fetch succeeds (R26). That a stopped machine's step answers its own state is the model's choice, log entry 2, and so is what the
latch holds in a machine that faults after its fetch, log entry 4. -/
def Obligations.LatchIsNotVisibleBetweenCycles : Prop :=
  ∀ (s : State) (l : Latch),
    (∃ t u, step s = .next t ∧ step { s with latch := l } = .next u ∧ { u with latch := t.latch } = t) ∧
    (s.run = .running → s.pc ≤ 253 → step { s with latch := l } = step s)

/-- Every meaning, in every state, and every step of every state answers a next state: no instruction stops the model. The spec gives the next
state of a running machine (R84) and describes the entry of a fault (R210), which the model reads as a next state (log entry 1). That a step of
a HALTED or FAULTED machine answers next is the model's choice, log entry 2, and that a meaning is defined in every state, a stopped one
included, is log entry 13. -/
def Obligations.EveryInstructionAndStepAnswersNext : Prop :=
  (∀ (i : Instr) (s : State), ∃ t, exec i s = .next t) ∧ (∀ s : State, ∃ t, step s = .next t)

/-! ## Invariant, reset, load, and the end of a run -/

/-- Every step keeps the invariant: memory canonical, the PC at most 256 (R25), and the run state one of R27 whose fault record is one
of the table of R200. -/
def Obligations.StepKeepsInvariant : Prop :=
  ∀ (s t : State), s.Inv → step s = .next t → t.Inv

/-- The state after construction, for every value of `SP_RESET`: memory 0, registers 0 to 6 zero, register 7 `SP_RESET`, the PC 0,
RUNNING (R30, R240) and no output (D10); and the default of `SP_RESET` is 0xF3 (D16). -/
def Obligations.ResetStateIsAsSpecified : Prop :=
  (∀ v : Byte, (∀ a, (State.resetWith v).mem.read a = 0#8) ∧
    (∀ r : Fin 8, r ≠ 7 → (State.resetWith v).readReg r = 0#8) ∧
    (State.resetWith v).readReg 7 = v ∧ (State.resetWith v).pc = 0 ∧ (State.resetWith v).run = .running ∧
    (State.resetWith v).out = []) ∧
  State.reset = State.resetWith 0xF3#8

/-- The reset state meets the invariant, for every value of `SP_RESET`. -/
def Obligations.ResetMeetsInvariant : Prop :=
  (∀ v : Byte, (State.resetWith v).Inv) ∧ State.reset.Inv

/-- The program load into the constructed machine: an image of at most 256 bytes stands from address 0 on, the cells after it keep 0,
and nothing else changes; a longer image, and a missing or unreadable source, are LoadErrors and the block does not start (R212, R242; the
longer image is D14). -/
def Obligations.LoadPlacesImageFromAddressZero : Prop :=
  ∀ (v : Byte) (image : List Byte),
    (image.length ≤ 256 → ∃ t, load (.image image) (State.resetWith v) = .next t ∧
      (∀ a, t.mem.read a = image.getD a 0#8) ∧ t = { State.resetWith v with mem := t.mem }) ∧
    (256 < image.length →
      load (.image image) (State.resetWith v) = .refused (.loadError (.imageTooLong image.length))) ∧
    load .missing (State.resetWith v) = .refused (.loadError .sourceMissing) ∧
    load .unreadable (State.resetWith v) = .refused (.loadError .sourceUnreadable)

/-- The load interface is closed once a step has been taken, whatever the state it was taken in, so the host never writes memory of a machine that
has run a cycle, HALTED or FAULTED ones included (R6, R242, D24; that the model answers a refusal is log entry 17). -/
def Obligations.LoadIsRefusedAfterAnyStep : Prop :=
  ∀ (s t : State) (source : ImageSource), step s = .next t → load source t = .refused .loadNotBeforeFirstCycle

/-- The program load keeps the invariant. -/
def Obligations.LoadKeepsInvariant : Prop :=
  ∀ (source : ImageSource) (s t : State), s.Inv → load source s = .next t → t.Inv

/-- A run ends in exactly one of three ways: normally, in one fault, or never (R244, D23). -/
def Obligations.RunEndsInExactlyOneWay : Prop :=
  ∀ (s : State),
    (endsNormally s ∨ (∃ f, endsInFault s f) ∨ neverEnds s) ∧
    (endsNormally s → ¬ neverEnds s ∧ ∀ f, ¬ endsInFault s f) ∧
    (∀ f, endsInFault s f → ¬ neverEnds s ∧ ∀ g, endsInFault s g → g = f)

/-! ## Instructions -/

/-- HLT halts and changes nothing else; the PC keeps the address of the HLT (R101, D9). -/
def Obligations.HltHaltsAndChangesNothingElse : Prop :=
  ∀ (s : State), exec .hlt s = .next { s with run := .halted }

/-- LDI: the immediate goes into the register, register 7 included and unchecked, and the PC advances by 3; a register operand of 8..255
raises `AddressFault(REG_INDEX)` (R102; D2, D6). -/
def Obligations.LdiLoadsImmediate : Prop :=
  ∀ (a imm : Byte) (s : State),
    (∀ r : Fin 8, a.toNat = r.val →
      exec (.ldi a imm) s = .next { s.writeReg r imm with pc := s.pc + 3 }) ∧
    (8 ≤ a.toNat → exec (.ldi a imm) s = .next { s with run := .faulted (.addressFault .regIndex a.toNat) })

/-- PRN: the register's value is appended to the output, no register or memory cell changes and the PC advances by 2; a register operand
of 8..255 raises `AddressFault(REG_INDEX)` (R103; D2, D10). -/
def Obligations.PrnAppendsRegisterValue : Prop :=
  ∀ (a : Byte) (s : State),
    (∀ r : Fin 8, a.toNat = r.val →
      exec (.prn a) s = .next { s with out := s.out ++ [s.readReg r], pc := s.pc + 2 }) ∧
    (8 ≤ a.toNat → exec (.prn a) s = .next { s with run := .faulted (.addressFault .regIndex a.toNat) })

/-- ADD: `x[a]` takes the sum modulo 256, register 7 included and unchecked, and the PC advances by 3; an operand of 8..255 raises
`AddressFault(REG_INDEX)`, the first operand before the second (R120; D1, D2, D6, D19). -/
def Obligations.AddStoresSumModulo256 : Prop :=
  ∀ (a b : Byte) (s : State),
    (∀ r q : Fin 8, a.toNat = r.val → b.toNat = q.val →
      exec (.add a b) s = .next { s.writeReg r
          (BitVec.ofNat 8 (((s.readReg r).toNat + (s.readReg q).toNat) % 256)) with pc := s.pc + 3 }) ∧
    (8 ≤ a.toNat → exec (.add a b) s = .next { s with run := .faulted (.addressFault .regIndex a.toNat) }) ∧
    (a.toNat < 8 → 8 ≤ b.toNat →
      exec (.add a b) s = .next { s with run := .faulted (.addressFault .regIndex b.toNat) })

/-- MUL: `x[a]` takes the low byte of the product, register 7 included and unchecked, and the PC advances by 3; an operand of 8..255 raises
`AddressFault(REG_INDEX)`, the first operand before the second (R121; D1, D2, D6, D19). -/
def Obligations.MulStoresProductModulo256 : Prop :=
  ∀ (a b : Byte) (s : State),
    (∀ r q : Fin 8, a.toNat = r.val → b.toNat = q.val →
      exec (.mul a b) s = .next { s.writeReg r
          (BitVec.ofNat 8 (((s.readReg r).toNat * (s.readReg q).toNat) % 256)) with pc := s.pc + 3 }) ∧
    (8 ≤ a.toNat → exec (.mul a b) s = .next { s with run := .faulted (.addressFault .regIndex a.toNat) }) ∧
    (a.toNat < 8 → 8 ≤ b.toNat →
      exec (.mul a b) s = .next { s with run := .faulted (.addressFault .regIndex b.toNat) })

/-- PUSH: the stack pointer goes down by one and the register's value, read after the decrement, is stored there; the PC advances by 2. A
register operand of 8..255 raises REG_INDEX, and a stack pointer of 0 raises SP_RANGE after that check (R140; D2, D6, D8, D19). -/
def Obligations.PushStoresBelowStackTop : Prop :=
  ∀ (a : Byte) (s : State),
    (∀ r : Fin 8, a.toNat = r.val → s.sp.toNat ≠ 0 →
      exec (.push a) s = .next { s.writeReg 7 (s.sp - 1#8) with
        mem := s.mem.write (s.sp.toNat - 1) (if r = 7 then s.sp - 1#8 else s.readReg r)
        pc := s.pc + 2 }) ∧
    (8 ≤ a.toNat → exec (.push a) s = .next { s with run := .faulted (.addressFault .regIndex a.toNat) }) ∧
    (a.toNat < 8 → s.sp.toNat = 0 →
      exec (.push a) s = .next { s with run := .faulted (.addressFault .spRange 0) })

/-- POP: the register takes the byte at the stack top, which stays in memory, and the stack pointer goes up by one; POP R7 leaves the popped
byte plus one; the PC advances by 2. A register operand of 8..255 raises REG_INDEX, and an increment past 255 raises SP_RANGE after that check
(R141; D2, D6, D8, D19). -/
def Obligations.PopTakesStackTop : Prop :=
  ∀ (a : Byte) (s : State),
    (∀ r : Fin 8, a.toNat = r.val → r ≠ 7 → s.sp.toNat ≠ 255 →
      exec (.pop a) s = .next { (s.writeReg r (s.mem.read s.sp.toNat)).writeReg 7 (s.sp + 1#8) with pc := s.pc + 2 }) ∧
    (a.toNat = 7 → (s.mem.read s.sp.toNat).toNat ≠ 255 →
      exec (.pop a) s = .next { s.writeReg 7 (s.mem.read s.sp.toNat + 1#8) with pc := s.pc + 2 }) ∧
    (8 ≤ a.toNat → exec (.pop a) s = .next { s with run := .faulted (.addressFault .regIndex a.toNat) }) ∧
    (a.toNat < 7 → s.sp.toNat = 255 →
      exec (.pop a) s = .next { s with run := .faulted (.addressFault .spRange 255) }) ∧
    (a.toNat = 7 → (s.mem.read s.sp.toNat).toNat = 255 →
      exec (.pop a) s = .next { s with run := .faulted (.addressFault .spRange 255) })

/-- CALL, at an address where the operand fetch succeeds: the stack pointer goes down by one, `pc + 2` is stored there, and the PC takes the
register's value, read after the decrement. A register operand of 8..255 raises REG_INDEX, and a stack pointer of 0 raises SP_RANGE after that
check (R160; D2, D6, D8, D19). -/
def Obligations.CallPushesReturnAddressAndJumps : Prop :=
  ∀ (a : Byte) (s : State),
    (∀ r : Fin 8, a.toNat = r.val → s.sp.toNat ≠ 0 → s.pc ≤ 253 →
      exec (.call a) s = .next { s.writeReg 7 (s.sp - 1#8) with
        mem := s.mem.write (s.sp.toNat - 1) (BitVec.ofNat 8 (s.pc + 2))
        pc := (if r = 7 then s.sp - 1#8 else s.readReg r).toNat }) ∧
    (8 ≤ a.toNat → exec (.call a) s = .next { s with run := .faulted (.addressFault .regIndex a.toNat) }) ∧
    (a.toNat < 8 → s.sp.toNat = 0 →
      exec (.call a) s = .next { s with run := .faulted (.addressFault .spRange 0) })

/-- RET: the PC takes the byte at the stack top and the stack pointer goes up by one; a stack pointer of 255 raises SP_RANGE (R161; D6). -/
def Obligations.RetPopsProgramCounter : Prop :=
  ∀ (s : State),
    (s.sp.toNat ≠ 255 → exec .ret s = .next { s.writeReg 7 (s.sp + 1#8) with pc := (s.mem.read s.sp.toNat).toNat }) ∧
    (s.sp.toNat = 255 → exec .ret s = .next { s with run := .faulted (.addressFault .spRange 255) })

/-- An instruction takes REG_INDEX exactly when one of its register operands is 8..255, that is, when it is not well-formed (R63, R202, R207;
D2). -/
def Obligations.RegIndexFaultExactlyWhenIllFormed : Prop :=
  ∀ (i : Instr) (s t : State), s.run = .running → exec i s = .next t →
    ((∃ v, t.run = .faulted (.addressFault .regIndex v)) ↔ wellFormed i = false)

/-! ## Frames -/

/-- The frame of the registers: an instruction writes no register but those of the last column of R21: LDI, ADD and MUL their first operand;
POP its operand and register 7; PUSH, CALL and RET register 7; HLT and PRN none. The table is derived in the spec. -/
def Obligations.OnlyTableRegistersAreWritten : Prop :=
  ∀ (i : Instr) (s t : State) (r : Fin 8), exec i s = .next t → writesRegister r i = false →
    t.readReg r = s.readReg r

/-- An instruction reads no register but those of the middle column of R21: whatever another register holds, the outcomes differ in that
register at most, and where the instruction writes that register and does not fault (x[a] of LDI, x[a] of POP) they do not differ at all, so the
register's own old value is not read either. The table is derived in the spec. -/
def Obligations.OnlyTableRegistersAreRead : Prop :=
  ∀ (i : Instr) (s : State) (r : Fin 8) (v : Byte), readsRegister r i = false →
    (∃ t u, exec i s = .next t ∧ exec i (s.writeReg r v) = .next u ∧ u.writeReg r 0#8 = t.writeReg r 0#8) ∧
    (writesRegister r i = true → handlerFault i s = none → exec i (s.writeReg r v) = exec i s)

/-- The memory frame of the forms that store nothing, HLT, LDI, PRN, ADD, MUL, POP and RET: every address reads as before (R40). -/
def Obligations.NonStoringInstructionsKeepMemory : Prop :=
  ∀ (i : Instr) (s t : State), (∀ a, i ≠ .push a) → (∀ a, i ≠ .call a) → exec i s = .next t →
    ∀ b, t.mem.read b = s.mem.read b

/-- The memory frame of PUSH and CALL: with the stack pointer decremented as their meanings do it, every address but the new stack top reads as
before; where the decrement raises, or the register operand does, every address does (R140, R160). -/
def Obligations.StoringInstructionsKeepOtherBytes : Prop :=
  ∀ (a : Byte) (s t : State), (exec (.push a) s = .next t ∨ exec (.call a) s = .next t) →
    (∀ lowered, decrementSp s = .ok lowered → ∀ b, b ≠ stackTop lowered → t.mem.read b = s.mem.read b) ∧
    (∀ f, decrementSp s = .error f → ∀ b, t.mem.read b = s.mem.read b) ∧
    (8 ≤ a.toNat → ∀ b, t.mem.read b = s.mem.read b)

/-- The frame of the rest of the state: no meaning touches the latch; none but PRN the output; and the run state of a running machine is left
RUNNING by every instruction but HLT unless it faults (R27, R28, R29). -/
def Obligations.OnlyNamedInstructionsTouchOutputAndRun : Prop :=
  ∀ (i : Instr) (s t : State), exec i s = .next t →
    t.latch = s.latch ∧ ((∀ a, i ≠ .prn a) → t.out = s.out) ∧
    (i ≠ .hlt → t.run = s.run ∨ ∃ f, handlerFault i s = some f ∧ t.run = .faulted f)

/-- The memory primitives (R10, R41): inside 0..255 a read gives the cell and a write makes exactly that cell read as the value; outside they
raise `AddressFault(MEMORY)`. -/
def Obligations.MemoryPrimitivesAreChecked : Prop :=
  ∀ (a : Nat) (v : Byte) (s : State),
    (a ≤ 255 → memRead a s = .ok (s.mem.read a) ∧
      ∃ t, memWrite a v s = .ok t ∧ memRead a t = .ok v ∧ (∀ b, b ≠ a → memRead b t = memRead b s) ∧
        t = { s with mem := t.mem }) ∧
    (255 < a → memRead a s = .error (.addressFault .memory a) ∧ memWrite a v s = .error (.addressFault .memory a))

/-- Equal memories are equal data: two canonical memories that read alike everywhere are the same list. The canonical list is the model's own
form of the memory of R40, log entry 16. -/
def Obligations.CanonicalMemoriesReadingAlikeAreEqual : Prop :=
  ∀ (m n : Memory), m.wf = true → n.wf = true → (∀ a, m.read a = n.read a) → m = n

/-! ## Laws of the spec's prose -/

/-- PUSH then POP of the same register, register 7 included, never faults in the POP, restores the register and the stack pointer, and leaves
the pushed value in its cell (R142; the register 7 case is derived in the spec). -/
def Obligations.PushThenPopRestoresRegisterAndSp : Prop :=
  ∀ (a : Byte) (r : Fin 8) (s : State), a.toNat = r.val → s.sp.toNat ≠ 0 →
    ∃ t u, exec (.push a) s = .next t ∧ exec (.pop a) t = .next u ∧
      u.readReg r = s.readReg r ∧ u.sp = s.sp ∧ u.run = s.run ∧
      u.mem.read (s.sp.toNat - 1) = (if r = 7 then s.sp - 1#8 else s.readReg r)

/-- PUSH of one register then POP into another copies it and leaves the stack pointer, and two pushes are popped last-in, first-out, for
registers other than 7 (R143, derived in the spec). -/
def Obligations.PushThenPopCopiesLastInFirstOut : Prop :=
  ∀ (a b c d : Byte) (ra rb rc rd : Fin 8) (s : State),
    a.toNat = ra.val → b.toNat = rb.val → c.toNat = rc.val → d.toNat = rd.val →
    ra ≠ 7 → rb ≠ 7 → rc ≠ 7 → rd ≠ 7 →
    (s.sp.toNat ≠ 0 → ∃ t u, exec (.push a) s = .next t ∧ exec (.pop b) t = .next u ∧
      u.readReg rb = s.readReg ra ∧ u.sp = s.sp ∧ u.run = s.run) ∧
    (1 < s.sp.toNat → rc ≠ rd → ∃ t u v w, exec (.push a) s = .next t ∧ exec (.push b) t = .next u ∧
      exec (.pop c) u = .next v ∧ exec (.pop d) v = .next w ∧
      w.readReg rc = s.readReg rb ∧ w.readReg rd = s.readReg ra ∧ w.sp = s.sp ∧ w.run = s.run)

/-- A CALL, then a subroutine that leaves the stack pointer and the top of the stack as it found them, then a RET: the PC is the CALL's address
plus 2, the stack pointer is restored, and the pair itself changes no other register (R162). -/
def Obligations.CallThenRetResumesAfterCall : Prop :=
  ∀ (a : Byte) (s t u : State), s.run = .running → s.pc ≤ 253 → exec (.call a) s = .next t → t.run = .running →
    u.sp = t.sp → u.mem.read (stackTop u) = t.mem.read (stackTop t) →
    ∃ v, exec .ret u = .next v ∧ v.run = u.run ∧ v.pc = s.pc + 2 ∧ v.sp = s.sp ∧
      (∀ r : Fin 8, r ≠ 7 → t.readReg r = s.readReg r ∧ v.readReg r = u.readReg r)

/-- Fetch coherence (R51, D15), for the two instructions that store, PUSH and CALL, wherever their store falls: over their own bytes, over the next
instruction's opcode or operands, or elsewhere. The storing instruction runs with the register its latched operand names and stores its one byte; the next
step is the meaning of the instruction that the three bytes at the new PC, as they read after the store, decode to, or raises `DecodeFault` with the byte
read there. The next step's latch after that fault is log entry 4. -/
def Obligations.StoreIsSeenByTheNextFetchOnly : Prop :=
  ∀ (s : State) (r : Fin 8) (stored : Byte) (target : Nat), s.run = .running → s.pc ≤ 253 →
    (s.mem.read (s.pc + 1)).toNat = r.val → s.sp.toNat ≠ 0 →
    ((s.mem.read s.pc = 0x45#8 ∧ stored = (if r = 7 then s.sp - 1#8 else s.readReg r) ∧ target = s.pc + 2) ∨
      (s.mem.read s.pc = 0x50#8 ∧ stored = BitVec.ofNat 8 (s.pc + 2) ∧
        target = (if r = 7 then s.sp - 1#8 else s.readReg r).toNat)) →
    ∃ t, step s = .next t ∧ t.run = .running ∧ t.pc = target ∧
      (∀ b, t.mem.read b = readAfterStore s.mem (s.sp.toNat - 1) stored b) ∧
      (target ≤ 253 →
        (∀ i rest,
          decode [readAfterStore s.mem (s.sp.toNat - 1) stored target,
            readAfterStore s.mem (s.sp.toNat - 1) stored (target + 1),
            readAfterStore s.mem (s.sp.toNat - 1) stored (target + 2)] = .ok (i, rest) →
          step t = exec i { t with latch :=
            ⟨readAfterStore s.mem (s.sp.toNat - 1) stored target,
              readAfterStore s.mem (s.sp.toNat - 1) stored (target + 1),
              readAfterStore s.mem (s.sp.toNat - 1) stored (target + 2)⟩ }) ∧
        (isOpcode (readAfterStore s.mem (s.sp.toNat - 1) stored target) = false →
          ∃ l, step t = .next { t with
            run := .faulted (.decodeFault target (readAfterStore s.mem (s.sp.toNat - 1) stored target)), latch := l }))

/-- The results of ADD and MUL, as operations on values, are commutative and associative and MUL distributes over ADD (R123, derived in the
spec). -/
def Obligations.ArithmeticLawsModulo256 : Prop :=
  ∀ x y z : Byte,
    addResult x y = addResult y x ∧ mulResult x y = mulResult y x ∧
    addResult (addResult x y) z = addResult x (addResult y z) ∧
    mulResult (mulResult x y) z = mulResult x (mulResult y z) ∧
    mulResult x (addResult y z) = addResult (mulResult x y) (mulResult x z)
end

