-- ==== Sys2Proof/Laws/Decode.lean ====
section
/-!
SUPPORT. Facts of the opcode table, and what the decoder can answer on the three bytes of a fetch.
-/
namespace Sys2Proof

/-- No two rows of the opcode table share an opcode byte, so decoding is unambiguous. -/
theorem opcodeTable_opcodes_distinct : opcodeTable.Pairwise fun p q => p.opcode ≠ q.opcode := by
  simp [opcodeTable]

/-- Each row has as many operand kinds as the top two bits of its opcode say (R62). -/
theorem opcodeTable_counts : ∀ row ∈ opcodeTable, row.kinds.length = operandCount row.opcode := by
  simp [opcodeTable, operandCount, bitsOf]

/-- What a lookup can find: one of the nine rows, under its own opcode byte. -/
theorem lookupOpcode_some {ir : Byte} {row : OpcodeRow} (h : lookupOpcode ir = some row) :
    row ∈ opcodeTable ∧ row.opcode = ir :=
  ⟨List.mem_of_find?_eq_some h, by simpa using List.find?_some h⟩

/-- What the decoder can answer on three bytes: an instruction made of them, or an undefined opcode. -/
theorem decode_three (ir a b : Byte) :
    (∃ row, lookupOpcode ir = some row ∧
        decode [ir, a, b] = .ok (row.build a b, [a, b].drop (operandCount ir))) ∨
      (lookupOpcode ir = none ∧ decode [ir, a, b] = .error (.undefinedOpcode ir)) := by
  cases h : lookupOpcode ir with
  | none => exact .inr ⟨rfl, by simp [decode, h]⟩
  | some row =>
    obtain ⟨hmem, rfl⟩ := lookupOpcode_some h
    have hle : operandCount row.opcode ≤ 2 := by
      rw [← opcodeTable_counts row hmem]
      revert row
      simp [opcodeTable]
    refine .inl ⟨row, rfl, ?_⟩
    simp only [decode, h, List.length_cons, List.length_nil]
    rw [if_neg (by omega)]
    rfl

/-- A row's instruction carries the row's opcode byte. -/
theorem opcodeOf_build {row : OpcodeRow} (h : row ∈ opcodeTable) (a b : Byte) :
    opcodeOf (row.build a b) = row.opcode := by
  revert row
  simp [opcodeTable, opcodeOf]

/-- A decoded instruction carries the fetched opcode byte (R81). -/
theorem opcodeOf_decode_three {ir a b : Byte} {i : Instr} {rest : List Byte}
    (h : decode [ir, a, b] = .ok (i, rest)) : opcodeOf i = ir := by
  obtain ⟨row, hrow, hd⟩ | ⟨-, hd⟩ := decode_three ir a b
  · obtain ⟨hmem, rfl⟩ := lookupOpcode_some hrow
    rw [hd] at h
    cases h
    exact opcodeOf_build hmem a b
  · rw [hd] at h
    cases h

end Sys2Proof
end

