-- ==== Sys2Proof/Laws/Memory.lean ====
section
/-!
SUPPORT. The laws of memory: read after write, the frame of a write, and that every operation keeps the canonical form.
The read laws hold of every list of cells, canonical or not.
-/
namespace Sys2Proof.Machine

theorem Memory.read_remove (m : Memory) (a b : Nat) :
    (m.remove a).read b = if b = a then unlistedByte else m.read b := by
  induction m with
  | nil => simp [Memory.remove, Memory.read]
  | cons c m ih =>
    simp only [Memory.remove] at ih
    by_cases hc : c.1 = a
    · simp only [Memory.remove, List.filter_cons, hc, bne_self_eq_false, Bool.false_eq_true, if_false, ih, Memory.read]
      split
      · rfl
      · next hb => rw [if_neg (fun e => hb e.symm)]
    · simp only [Memory.remove, List.filter_cons, bne_iff_ne.mpr hc, if_true, Memory.read, ih]
      grind

/-- Inserting an entry for an address that has none. -/
theorem Memory.read_insert (m : Memory) (a b : Nat) (v : Byte) (h : ∀ c ∈ m, c.1 ≠ a) :
    (m.insert a v).read b = if b = a then v else m.read b := by
  induction m with
  | nil => simp only [Memory.insert, Memory.read]; grind
  | cons c m ih =>
    have hc := h c (by simp)
    have := ih fun d hd => h d (by simp [hd])
    simp only [Memory.insert]
    split <;> simp only [Memory.read] <;> grind

/-- Read after write: the stored byte at its address, the old one elsewhere. -/
theorem Memory.read_write (m : Memory) (a b : Nat) (v : Byte) :
    (m.write a v).read b = if b = a then v else m.read b := by
  unfold Memory.write
  split
  · next hv => rw [Memory.read_remove, hv]
  · rw [Memory.read_insert _ _ _ _ (by simp [Memory.remove]), Memory.read_remove]
    split <;> rfl

@[simp] theorem Memory.read_write_same (m : Memory) (a : Nat) (v : Byte) : (m.write a v).read a = v := by
  simp [Memory.read_write]

theorem Memory.read_write_other (m : Memory) {a b : Nat} (hb : b ≠ a) (v : Byte) :
    (m.write a v).read b = m.read b := by
  simp [Memory.read_write, hb]

/-- The bytes a memory holds after consecutive bytes are stored. -/
theorem Memory.read_writeList (m : Memory) (bs : List Byte) (a b : Nat) :
    (m.writeList a bs).read b = if a ≤ b then bs.getD (b - a) (m.read b) else m.read b := by
  induction bs generalizing m a with
  | nil => simp [Memory.writeList]
  | cons v bs ih =>
    rw [Memory.writeList, ih, Memory.read_write]
    by_cases h1 : b = a
    · simp [h1]
    · by_cases h2 : a ≤ b
      · obtain ⟨k, rfl⟩ : ∃ k, b = a + 1 + k := ⟨b - a - 1, by omega⟩
        have e1 : a + 1 + k - a = k + 1 := by omega
        have e2 : a + 1 + k - (a + 1) = k := by omega
        simp [e1, e2, h2, h1]
      · simp [h1, h2, show ¬ a + 1 ≤ b by omega]

/-! ## The canonical form -/

theorem Memory.wfFrom_cons {lo : Nat} {c : Host.Cell} {m : Memory} :
    Memory.wfFrom lo (c :: m) = true ↔
      (lo ≤ c.1 ∧ c.1 < 256 ∧ c.2 ≠ unlistedByte) ∧ Memory.wfFrom (c.1 + 1) m = true := by
  simp only [Memory.wfFrom, Bool.and_eq_true, decide_eq_true_eq, and_assoc]

theorem Memory.wfFrom_mono {lo lo' : Nat} {m : Memory} (hle : lo' ≤ lo) (h : Memory.wfFrom lo m = true) :
    Memory.wfFrom lo' m = true := by
  cases m with
  | nil => rfl
  | cons c m =>
    obtain ⟨⟨h1, h2⟩, h3⟩ := Memory.wfFrom_cons.mp h
    exact Memory.wfFrom_cons.mpr ⟨⟨hle.trans h1, h2⟩, h3⟩

/-- In a canonical memory whose cells start at `lo`, an address below `lo` is not listed. -/
theorem Memory.read_below {m : Memory} {lo a : Nat} (h : Memory.wfFrom lo m = true) (ha : a < lo) :
    m.read a = unlistedByte := by
  induction m generalizing lo with
  | nil => rfl
  | cons c m ih =>
    obtain ⟨⟨h1, -⟩, h3⟩ := Memory.wfFrom_cons.mp h
    rw [Memory.read, if_neg (by omega)]
    exact ih h3 (by omega)

theorem Memory.wfFrom_remove {lo : Nat} {m : Memory} (a : Nat) (h : Memory.wfFrom lo m = true) :
    Memory.wfFrom lo (m.remove a) = true := by
  induction m generalizing lo with
  | nil => rfl
  | cons c m ih =>
    obtain ⟨h1, h2⟩ := Memory.wfFrom_cons.mp h
    simp only [Memory.remove, List.filter_cons]
    split
    · exact Memory.wfFrom_cons.mpr ⟨h1, ih h2⟩
    · exact ih (Memory.wfFrom_mono (by omega) h2)

theorem Memory.wfFrom_insert {lo a : Nat} {m : Memory} {v : Byte} (h : Memory.wfFrom lo m = true) (hlo : lo ≤ a)
    (ha : a < 256) (hv : v ≠ unlistedByte) (hm : ∀ c ∈ m, c.1 ≠ a) :
    Memory.wfFrom lo (m.insert a v) = true := by
  induction m generalizing lo with
  | nil => exact Memory.wfFrom_cons.mpr ⟨⟨hlo, ha, hv⟩, rfl⟩
  | cons c m ih =>
    obtain ⟨h1, h2⟩ := Memory.wfFrom_cons.mp h
    have hc : c.1 ≠ a := hm c (by simp)
    simp only [Memory.insert]
    split
    · exact Memory.wfFrom_cons.mpr ⟨⟨hlo, ha, hv⟩, Memory.wfFrom_cons.mpr ⟨⟨by omega, h1.2⟩, h2⟩⟩
    · exact Memory.wfFrom_cons.mpr ⟨h1, ih h2 (by omega) fun d hd => hm d (by simp [hd])⟩

theorem Memory.wf_nil : Memory.wf [] = true := rfl

/-- A write inside the address space keeps memory canonical. -/
theorem Memory.wf_write {m : Memory} {a : Nat} (h : m.wf = true) (ha : a < 256) (v : Byte) :
    (m.write a v).wf = true := by
  unfold Memory.write
  split
  · exact Memory.wfFrom_remove a h
  · next hv => exact Memory.wfFrom_insert (Memory.wfFrom_remove a h) (Nat.zero_le a) ha hv (by simp [Memory.remove])

/-- Storing bytes inside the address space keeps memory canonical. -/
theorem Memory.wf_writeList {m : Memory} (h : m.wf = true) (bs : List Byte) (a : Nat)
    (hfit : a + bs.length ≤ 256) : (m.writeList a bs).wf = true := by
  induction bs generalizing m a with
  | nil => exact h
  | cons b bs ih =>
    simp only [List.length_cons] at hfit
    exact ih (Memory.wf_write h (by omega) b) (a + 1) (by omega)

end Sys2Proof.Machine
end

