-- ==== Sys2Proof/Laws/HostInterface.lean ====
section
/-!
SUPPORT. What the program load can do, said once.
-/
namespace Sys2Proof.Machine

/-- The constructed machine, field by field. -/
theorem constructed_iff {s : State} :
    constructed s = true ↔ s = { State.resetWith s.sp with latch := s.latch } := by
  simp only [constructed, decide_eq_true_eq]

theorem constructed_resetWith (v : Byte) : constructed (State.resetWith v) = true := constructed_iff.mpr rfl

/-- The constructed machine runs, at address 0, with an empty memory. -/
theorem constructed_fields {s : State} (h : constructed s = true) : s.run = .running ∧ s.pc = 0 ∧ s.mem = [] := by
  rw [constructed_iff] at h
  exact ⟨by rw [h]; rfl, by rw [h]; rfl, by rw [h]; rfl⟩

/-- Everything the load can do: in the constructed machine place an image that fits or refuse by the LoadError of the source, and
refuse any other machine. -/
theorem load_cases (source : ImageSource) (s : State) :
    (constructed s = true ∧
      ((∃ bytes, source = .image bytes ∧ bytes.length ≤ 256 ∧
          load source s = .next { s with mem := s.mem.writeList Config.loadBase bytes }) ∨
        (∃ bytes, source = .image bytes ∧ 256 < bytes.length ∧
          load source s = .refused (.loadError (.imageTooLong bytes.length))) ∨
        (source = .missing ∧ load source s = .refused (.loadError .sourceMissing)) ∨
        (source = .unreadable ∧ load source s = .refused (.loadError .sourceUnreadable)))) ∨
      (constructed s = false ∧ load source s = .refused .loadNotBeforeFirstCycle) := by
  cases hc : constructed s with
  | false => exact .inr ⟨rfl, by simp [load, hc]⟩
  | true =>
    refine .inl ⟨rfl, ?_⟩
    cases source with
    | missing => exact .inr (.inr (.inl ⟨rfl, by simp only [load, hc, if_true]⟩))
    | unreadable => exact .inr (.inr (.inr ⟨rfl, by simp only [load, hc, if_true]⟩))
    | image bytes =>
      by_cases hl : bytes.length ≤ 256
      · exact .inl ⟨bytes, rfl, hl, by simp only [load, hc, if_true, loadImage, if_pos hl]⟩
      · exact .inr (.inl ⟨bytes, rfl, by omega, by simp only [load, hc, if_true, loadImage, if_neg hl]⟩)

end Sys2Proof.Machine
end

