-- ==== Sys2Proof/Laws/State.lean ====
section
/-!
SUPPORT. One lemma per field per named update of State, and the register laws.
-/
namespace Sys2Proof.Machine

variable (s : State) (r q : Fin 8) (v : Byte) (i : Instr) (f : FaultRecord)

@[simp] theorem writeReg_mem : (s.writeReg r v).mem = s.mem := rfl
@[simp] theorem writeReg_regs : (s.writeReg r v).regs = s.regs.set r v := rfl
@[simp] theorem writeReg_pc : (s.writeReg r v).pc = s.pc := rfl
@[simp] theorem writeReg_run : (s.writeReg r v).run = s.run := rfl
@[simp] theorem writeReg_out : (s.writeReg r v).out = s.out := rfl
@[simp] theorem writeReg_latch : (s.writeReg r v).latch = s.latch := rfl

@[simp] theorem advance_mem : (advance i s).mem = s.mem := rfl
@[simp] theorem advance_regs : (advance i s).regs = s.regs := rfl
@[simp] theorem advance_pc : (advance i s).pc = s.pc + 1 + operandCount (opcodeOf i) := rfl
@[simp] theorem advance_run : (advance i s).run = s.run := rfl
@[simp] theorem advance_out : (advance i s).out = s.out := rfl
@[simp] theorem advance_latch : (advance i s).latch = s.latch := rfl

@[simp] theorem jumpTo_mem : (jumpTo v s).mem = s.mem := rfl
@[simp] theorem jumpTo_regs : (jumpTo v s).regs = s.regs := rfl
@[simp] theorem jumpTo_pc : (jumpTo v s).pc = v.toNat := rfl
@[simp] theorem jumpTo_run : (jumpTo v s).run = s.run := rfl
@[simp] theorem jumpTo_out : (jumpTo v s).out = s.out := rfl
@[simp] theorem jumpTo_latch : (jumpTo v s).latch = s.latch := rfl

@[simp] theorem emit_mem : (emit v s).mem = s.mem := rfl
@[simp] theorem emit_regs : (emit v s).regs = s.regs := rfl
@[simp] theorem emit_pc : (emit v s).pc = s.pc := rfl
@[simp] theorem emit_run : (emit v s).run = s.run := rfl
@[simp] theorem emit_out : (emit v s).out = s.out ++ [v] := rfl
@[simp] theorem emit_latch : (emit v s).latch = s.latch := rfl

@[simp] theorem halt_mem : (halt s).mem = s.mem := rfl
@[simp] theorem halt_regs : (halt s).regs = s.regs := rfl
@[simp] theorem halt_pc : (halt s).pc = s.pc := rfl
@[simp] theorem halt_run : (halt s).run = .halted := rfl
@[simp] theorem halt_out : (halt s).out = s.out := rfl
@[simp] theorem halt_latch : (halt s).latch = s.latch := rfl

@[simp] theorem raise_mem : (raise f s).mem = s.mem := rfl
@[simp] theorem raise_regs : (raise f s).regs = s.regs := rfl
@[simp] theorem raise_pc : (raise f s).pc = s.pc := rfl
@[simp] theorem raise_run : (raise f s).run = .faulted f := rfl
@[simp] theorem raise_out : (raise f s).out = s.out := rfl
@[simp] theorem raise_latch : (raise f s).latch = s.latch := rfl

/-! ## Registers -/

@[simp] theorem readReg_writeReg_same : (s.writeReg r v).readReg r = v := by
  simp [State.readReg, State.writeReg]

theorem readReg_writeReg_other (h : q ≠ r) : (s.writeReg r v).readReg q = s.readReg q := by
  have : (r : Nat) ≠ q := fun e => h (Fin.ext e.symm)
  simp [State.readReg, State.writeReg, Vector.getElem_set_ne, this]

theorem readReg_writeReg : (s.writeReg r v).readReg q = if q = r then v else s.readReg q := by
  split
  · next h => subst h; simp
  · next h => exact readReg_writeReg_other s r q v h

@[simp] theorem readReg_advance : (advance i s).readReg r = s.readReg r := rfl
@[simp] theorem readReg_jumpTo : (jumpTo v s).readReg r = s.readReg r := rfl
@[simp] theorem readReg_emit : (emit v s).readReg r = s.readReg r := rfl
@[simp] theorem readReg_halt : (halt s).readReg r = s.readReg r := rfl
@[simp] theorem readReg_raise : (raise f s).readReg r = s.readReg r := rfl

/-- Two states with the same registers, read one by one, have the same register file. -/
theorem regs_ext {s t : State} (h : ∀ r, s.readReg r = t.readReg r) : s.regs = t.regs :=
  Vector.ext fun n hn => h ⟨n, hn⟩

/-- Reading a register file after one of its registers is set. -/
theorem getElem_set_register (regs : Vector Byte 8) (r q : Fin 8) (v : Byte) :
    (regs.set r v)[q] = if q = r then v else regs[q] := by
  split
  · next h => subst h; simp
  · next h =>
    have : (r : Nat) ≠ q := fun e => h (Fin.ext e.symm)
    simp [Vector.getElem_set_ne, this]

theorem sp_eq : s.sp = s.readReg Config.spIndex := rfl
theorem stackTop_eq : stackTop s = s.sp.toNat := rfl

/-- The stack top is always inside memory, so the stack handlers never raise MEMORY (R41). -/
theorem stackTop_lt : stackTop s < 256 := s.sp.isLt

end Sys2Proof.Machine
end

