-- ==== Sys2Proof/Laws/Ops.lean ====
section
/-!
SUPPORT. One lemma per shared operation, saying once everything it can do.
-/
namespace Sys2Proof.Machine

/-- How a handler can end: with its own state, or with its fault entered in the state it began in. -/
theorem complete_next {s t : State} {e : Except FaultRecord State} (h : complete s e = .next t) :
    e = .ok t ∨ ∃ f, e = .error f ∧ t = raise f s := by
  cases e with
  | ok u => exact .inl (by simpa [complete] using h)
  | error f => exact .inr ⟨f, rfl, by simpa [complete] using h.symm⟩

/-- A handler always answers a next state. -/
theorem complete_answers (s : State) (e : Except FaultRecord State) : ∃ t, complete s e = .next t := by
  cases e <;> exact ⟨_, rfl⟩

@[simp] theorem complete_ok (s t : State) : complete s (.ok t) = .next t := rfl
@[simp] theorem complete_error (s : State) (f : FaultRecord) : complete s (.error f) = .next (raise f s) := rfl

/-- A register operand that names register `r`. -/
theorem regIndex_ok {a : Byte} {r : Fin 8} (h : a.toNat = r.val) : regIndex a = .ok r := by
  simp [regIndex, h]

/-- A register operand of 8..255. -/
theorem regIndex_error {a : Byte} (h : 8 ≤ a.toNat) : regIndex a = .error (.addressFault .regIndex a.toNat) := by
  simp [regIndex, Nat.not_lt.mpr h]

/-- What a register operand can do: name a register, or be 8..255 and raise. -/
theorem regIndex_cases (a : Byte) :
    (∃ r : Fin 8, a.toNat = r.val ∧ regIndex a = .ok r) ∨
      (8 ≤ a.toNat ∧ regIndex a = .error (.addressFault .regIndex a.toNat)) := by
  by_cases h : a.toNat < 8
  · exact .inl ⟨⟨a.toNat, h⟩, rfl, regIndex_ok rfl⟩
  · exact .inr ⟨by omega, regIndex_error (by omega)⟩

/-- What the shape ADD and MUL share can do: write the result, or raise for the first operand that is 8..255. -/
theorem binaryHandler_cases (op : Byte → Byte → Byte) (a b : Byte) (s : State) :
    (∃ r q : Fin 8, a.toNat = r.val ∧ b.toNat = q.val ∧
        binaryHandler op a b s = .ok (s.writeReg r (op (s.readReg r) (s.readReg q)))) ∨
      (8 ≤ a.toNat ∧ binaryHandler op a b s = .error (.addressFault .regIndex a.toNat)) ∨
      (a.toNat < 8 ∧ 8 ≤ b.toNat ∧ binaryHandler op a b s = .error (.addressFault .regIndex b.toNat)) := by
  obtain ⟨r, hr, ha⟩ | ⟨hr, ha⟩ := regIndex_cases a
  · obtain ⟨q, hq, hb⟩ | ⟨hq, hb⟩ := regIndex_cases b
    · exact .inl ⟨r, q, hr, hq, by simp only [binaryHandler, ha, hb, bind, Except.bind, pure, Except.pure]⟩
    · exact .inr (.inr ⟨hr ▸ r.isLt, hq, by simp only [binaryHandler, ha, hb, bind, Except.bind]⟩)
  · exact .inr (.inl ⟨hr, by simp only [binaryHandler, ha, bind, Except.bind]⟩)

/-- What the decrement of the stack pointer can do. -/
theorem decrementSp_cases (s : State) :
    (s.sp.toNat ≠ 0 ∧ decrementSp s = .ok (s.writeReg Config.spIndex (s.sp - 1#8))) ∨
      (s.sp.toNat = 0 ∧ decrementSp s = .error (.addressFault .spRange 0)) := by
  by_cases h : s.sp.toNat = 0 <;> simp [decrementSp, h]

/-- What the increment of the stack pointer can do. -/
theorem incrementSp_cases (s : State) :
    (s.sp.toNat ≠ 255 ∧ incrementSp s = .ok (s.writeReg Config.spIndex (s.sp + 1#8))) ∨
      (s.sp.toNat = 255 ∧ incrementSp s = .error (.addressFault .spRange 255)) := by
  by_cases h : s.sp.toNat = 255 <;> simp [incrementSp, h]

/-- A read at the stack top never raises (R41). -/
@[simp] theorem memRead_stackTop (s t : State) : memRead (stackTop s) t = .ok (t.mem.read (stackTop s)) := by
  rw [memRead, if_pos (stackTop_lt s)]

/-- A write at the stack top never raises (R41). -/
@[simp] theorem memWrite_stackTop (s t : State) (v : Byte) :
    memWrite (stackTop s) v t = .ok { t with mem := t.mem.write (stackTop s) v } := by
  rw [memWrite, if_pos (stackTop_lt s)]

/-- Where PUSH and CALL store: one below the old stack top. -/
theorem stackTop_decremented {s : State} (h : s.sp.toNat ≠ 0) :
    stackTop (s.writeReg Config.spIndex (s.sp - 1#8)) = s.sp.toNat - 1 := by
  have : stackTop (s.writeReg Config.spIndex (s.sp - 1#8)) = (s.sp - 1#8).toNat := by
    simp only [stackTop, State.sp, readReg_writeReg_same]
  rw [this]
  have := s.sp.isLt
  bv_omega

/-- The read of POP and RET, at the stack pointer's value. -/
@[simp] theorem memRead_sp (s t : State) : memRead s.sp.toNat t = .ok (t.mem.read s.sp.toNat) := memRead_stackTop s t

/-- The store of PUSH and CALL, one below the old stack top. -/
@[simp] theorem memWrite_below_sp (s t : State) (v : Byte) :
    memWrite (s.sp.toNat - 1) v t = .ok { t with mem := t.mem.write (s.sp.toNat - 1) v } := by
  have := s.sp.isLt
  rw [memWrite, if_pos (by omega)]

end Sys2Proof.Machine
end

