-- ==== Sys2Proof/Laws/PerInstr.lean ====
section
/-!
SUPPORT. The per-instruction family EncodedLength: an instruction is one opcode byte and `IR[7:6]` operand bytes, and its opcode
byte is a row of the table (spec/30_encoding.md R60, R62, R67).
-/
namespace Sys2Proof.Laws.EncodedLength

/-- The encoding has `1 + IR[7:6]` bytes, at most three, and its first byte is in the opcode table. -/
def Statement (i : Instr) : Prop :=
  (encode i).length = 1 + operandCount (opcodeOf i) ∧ (encode i).length ≤ 3 ∧ (lookupOpcode (opcodeOf i)).isSome = true

theorem hlt : Statement .hlt := ⟨rfl, by decide, rfl⟩
theorem ldi (a imm : Byte) : Statement (.ldi a imm) := by simp [Statement, encode, operandsOf, opcodeOf, operandCount, bitsOf, lookupOpcode, opcodeTable]
theorem prn (a : Byte) : Statement (.prn a) := by simp [Statement, encode, operandsOf, opcodeOf, operandCount, bitsOf, lookupOpcode, opcodeTable]
theorem add (a b : Byte) : Statement (.add a b) := by simp [Statement, encode, operandsOf, opcodeOf, operandCount, bitsOf, lookupOpcode, opcodeTable]
theorem mul (a b : Byte) : Statement (.mul a b) := by simp [Statement, encode, operandsOf, opcodeOf, operandCount, bitsOf, lookupOpcode, opcodeTable]
theorem push (a : Byte) : Statement (.push a) := by simp [Statement, encode, operandsOf, opcodeOf, operandCount, bitsOf, lookupOpcode, opcodeTable]
theorem pop (a : Byte) : Statement (.pop a) := by simp [Statement, encode, operandsOf, opcodeOf, operandCount, bitsOf, lookupOpcode, opcodeTable]
theorem call (a : Byte) : Statement (.call a) := by simp [Statement, encode, operandsOf, opcodeOf, operandCount, bitsOf, lookupOpcode, opcodeTable]
theorem ret : Statement .ret := ⟨rfl, by decide, rfl⟩

end Sys2Proof.Laws.EncodedLength
end

