-- ==== Sys2Proof/Laws/Step.lean ====
section
/-!
SUPPORT. What the fetch, a cycle and a step can do, said once.
-/
namespace Sys2Proof.Machine

/-- The latch a fetch at `pc` fills. -/
def fetchedLatch (s : State) : Latch := ⟨s.mem.read s.pc, s.mem.read (s.pc + 1), s.mem.read (s.pc + 2)⟩

theorem fetchByte_ok {kind : AddressKind} {a : Nat} (s : State) (h : a ≤ 255) :
    fetchByte kind a s = .ok (s.mem.read a) := by
  rw [fetchByte, if_neg (by omega), memRead, if_pos (show a < 256 by omega)]

theorem fetchByte_error {kind : AddressKind} {a : Nat} (s : State) (h : 255 < a) :
    fetchByte kind a s = .error (.addressFault kind a) := by
  rw [fetchByte, if_pos h]

/-- Everything the fetch can do: fill the latch, or fault at one of its three bytes with the earlier ones latched. -/
theorem fetch_cases (s : State) :
    (s.pc ≤ 253 ∧ fetch s = .ok { s with latch := fetchedLatch s }) ∨
    (s.pc = 254 ∧ fetch s = .error (raise (.addressFault .operandFetch 256)
      { s with latch := { s.latch with ir := s.mem.read 254, opA := s.mem.read 255 } })) ∨
    (s.pc = 255 ∧ fetch s = .error (raise (.addressFault .operandFetch 256)
      { s with latch := { s.latch with ir := s.mem.read 255 } })) ∨
    (255 < s.pc ∧ fetch s = .error (raise (.addressFault .fetch s.pc) s)) := by
  obtain h | h | h | h : s.pc ≤ 253 ∨ s.pc = 254 ∨ s.pc = 255 ∨ 255 < s.pc := by omega
  · refine .inl ⟨h, ?_⟩
    simp only [fetch, fetchOpcode, latchByte, fetchByte_ok s (show s.pc ≤ 255 by omega)]
    simp only [bind, Except.bind, fetchOperandA, latchByte, fetchByte_ok _ (show s.pc + 1 ≤ 255 by omega)]
    simp only [fetchOperandB, latchByte, fetchByte_ok _ (show s.pc + 2 ≤ 255 by omega)]
    rfl
  · refine .inr (.inl ⟨h, ?_⟩)
    simp only [fetch, fetchOpcode, latchByte, fetchByte_ok s (show s.pc ≤ 255 by omega)]
    simp only [bind, Except.bind, fetchOperandA, latchByte, fetchByte_ok _ (show s.pc + 1 ≤ 255 by omega)]
    simp only [fetchOperandB, latchByte, fetchByte_error _ (show 255 < s.pc + 2 by omega)]
    simp only [h]
  · refine .inr (.inr (.inl ⟨h, ?_⟩))
    simp only [fetch, fetchOpcode, latchByte, fetchByte_ok s (show s.pc ≤ 255 by omega)]
    simp only [bind, Except.bind, fetchOperandA, latchByte, fetchByte_error _ (show 255 < s.pc + 1 by omega)]
    simp only [h]
  · refine .inr (.inr (.inr ⟨h, ?_⟩))
    simp only [fetch, fetchOpcode, latchByte, fetchByte_error s h, bind, Except.bind]

/-- A step of a running machine is one cycle. -/
theorem step_running {s : State} (h : s.run = .running) : step s = cycle s := by
  simp [step, engine, h]

/-- Everything a step of a running machine can do: fault in the fetch, fault in the decode, or execute. -/
theorem step_running_cases {s : State} (h : s.run = .running) :
    (s.pc ≤ 253 ∧ ∃ i rest, decode (fetchedLatch s).bytes = .ok (i, rest) ∧
      step s = exec i { s with latch := fetchedLatch s }) ∨
    (s.pc ≤ 253 ∧ lookupOpcode (s.mem.read s.pc) = none ∧
      step s = .next (raise (.decodeFault s.pc (s.mem.read s.pc)) { s with latch := fetchedLatch s })) ∨
    ((s.pc = 254 ∨ s.pc = 255) ∧ ∃ l, step s = .next (raise (.addressFault .operandFetch 256) { s with latch := l })) ∨
    (255 < s.pc ∧ step s = .next (raise (.addressFault .fetch s.pc) s)) := by
  rw [step_running h, cycle]
  obtain ⟨hp, hf⟩ | ⟨hp, hf⟩ | ⟨hp, hf⟩ | ⟨hp, hf⟩ := fetch_cases s
  · rw [hf]
    obtain ⟨row, -, hd⟩ | ⟨hn, hd⟩ := decode_three (s.mem.read s.pc) (s.mem.read (s.pc + 1)) (s.mem.read (s.pc + 2))
    · exact .inl ⟨hp, _, _, hd, by simp only [decodeAndExecute, Latch.bytes, fetchedLatch, hd]⟩
    · exact .inr (.inl ⟨hp, hn, by simp only [decodeAndExecute, Latch.bytes, fetchedLatch, hd]⟩)
  · exact .inr (.inr (.inl ⟨.inl hp, _, by rw [hf]⟩))
  · exact .inr (.inr (.inl ⟨.inr hp, _, by rw [hf]⟩))
  · exact .inr (.inr (.inr ⟨hp, by rw [hf]⟩))

end Sys2Proof.Machine
end

