-- ==== Sys2Proof/Tests/Slice0.lean ====
section
/-!
SUPPORT. Tests of the model, with results from spec/95_test_vectors.md and the tables of the spec, and the witnesses of the statements'
hypotheses.
-/
namespace Sys2Proof.Machine

/-- Bytes at the PC, registers and other memory cells, the rest as after reset: the start states of spec/95_test_vectors.md. -/
def testState (pc : Nat) (bytes : List Byte) (regs : Vector Byte 8) (cells : Memory := []) : State :=
  { State.reset with mem := cells.writeList pc bytes, regs := regs, pc := pc }

/-- The next state a step or a meaning answered, if it did. -/
def answered : Result → Option State
  | .next t => some t
  | .fault _ => none
  | .refused _ => none

/-! ## Well-formedness refuses a register operand above 7, in each place one stands (R63) -/

theorem test_wf_refuses_ldi : wellFormed (.ldi 8#8 0#8) = false := by decide
theorem test_wf_refuses_prn : wellFormed (.prn 9#8) = false := by decide
theorem test_wf_refuses_add_first : wellFormed (.add 8#8 0#8) = false := by decide
theorem test_wf_refuses_add_second : wellFormed (.add 0#8 8#8) = false := by decide
theorem test_wf_refuses_mul_first : wellFormed (.mul 255#8 7#8) = false := by decide
theorem test_wf_refuses_mul_second : wellFormed (.mul 7#8 12#8) = false := by decide
theorem test_wf_refuses_push : wellFormed (.push 10#8) = false := by decide
theorem test_wf_refuses_pop : wellFormed (.pop 8#8) = false := by decide
theorem test_wf_refuses_call : wellFormed (.call 8#8) = false := by decide
theorem test_wf_accepts_any_immediate : wellFormed (.ldi 7#8 255#8) = true := by decide

/-! ## Decoding: a word of each instruction, written out from the table of R64 -/

theorem test_decode_hlt : decode [0b00000001#8] = .ok (.hlt, []) := rfl
theorem test_decode_ldi : decode [0b10000010#8, 0b00000011#8, 0b11001000#8] = .ok (.ldi 3#8 200#8, []) := rfl
theorem test_decode_prn : decode [0b01000111#8, 0b00000101#8, 0xAA#8] = .ok (.prn 5#8, [0xAA#8]) := rfl
theorem test_decode_add : decode [0b10100000#8, 0b00000110#8, 0b00000001#8] = .ok (.add 6#8 1#8, []) := rfl
theorem test_decode_mul : decode [0b10100010#8, 0b00000010#8, 0b00000100#8] = .ok (.mul 2#8 4#8, []) := rfl
theorem test_decode_push : decode [0b01000101#8, 0b00000111#8] = .ok (.push 7#8, []) := rfl
theorem test_decode_pop : decode [0b01000110#8, 0b00000001#8] = .ok (.pop 1#8, []) := rfl
theorem test_decode_call : decode [0b01010000#8, 0b00000010#8] = .ok (.call 2#8, []) := rfl
theorem test_decode_ret : decode [0b00010001#8, 0x47#8, 0x00#8] = .ok (.ret, [0x47#8, 0x00#8]) := rfl
/-- V2 and V3: a byte with top bits 11, and one bit from RET, are no opcodes. -/
theorem test_decode_undefined :
    decode [0xC0#8, 0#8, 0#8] = .error (.undefinedOpcode 0xC0#8) ∧ decode [0x10#8] = .error (.undefinedOpcode 0x10#8) :=
  ⟨rfl, rfl⟩
/-- R66: 247 of the 256 byte values are undefined. -/
theorem test_undefined_opcode_count :
    ((List.range 256).filter fun n => !isOpcode (BitVec.ofNat 8 n)).length = 247 := by decide +kernel
/-- The sum program of E2, assembled from its text. -/
theorem test_assemble_e2 :
    assemble ['L', 'D', 'I', ' ', 'R', '0', ',', '2', '0', '0'] = some [0x82#8, 0#8, 0xC8#8] ∧
    assemble ['[', 'M', 'U', 'L', ',', '0', ',', '1', ']'] = some [0xA2#8, 0#8, 1#8] ∧
    assemble ['L', 'D', 'I', ' ', 'R', '8', ',', '1'] = none := by decide

/-! ## One step of each instruction, from spec/95_test_vectors.md -/

/-- V10. -/
theorem test_hlt : (answered (step (testState 7 [0x01#8, 0xAA#8, 0xBB#8] (Vector.replicate 8 0#8)))).map
    (fun t => (t.run, t.pc)) = some (.halted, 7) := by decide
/-- V5: HLT at 254 never runs. -/
theorem test_hlt_at_254 : (answered (step (testState 254 [0x01#8] (Vector.replicate 8 0#8)))).map
    (fun t => (t.run, t.pc)) = some (.faulted (.addressFault .operandFetch 256), 254) := by decide
/-- V8: the last address an instruction can start at. -/
theorem test_ldi_at_253 : (answered (step (testState 253 [0x82#8, 0x03#8, 0xFF#8] (Vector.replicate 8 0#8)))).map
    (fun t => (t.readReg 3, t.pc)) = some (255#8, 256) := by decide
/-- V13. -/
theorem test_ldi_register_8 : (answered (step (testState 0 [0x82#8, 0x08#8, 0x05#8] (Vector.replicate 8 0#8)))).map
    (fun t => (t.run, t.pc)) = some (.faulted (.addressFault .regIndex 8), 0) := by decide
/-- V16: the stack pointer after reset. -/
theorem test_prn_sp : (answered (step (State.reset.withFetchWord 16 0x0747))).map
    (fun t => (t.out, t.pc)) = some ([243#8], 2) := by decide
/-- V20. -/
theorem test_add_wraps : (answered (step (testState 0 [0xA0#8, 0x00#8, 0x01#8] #v[200#8, 100#8, 0#8, 0#8, 0#8, 0#8, 0#8, 0#8]))).map
    (fun t => (t.readReg 0, t.readReg 1, t.pc)) = some (44#8, 100#8, 3) := by decide
/-- V25: the first operand is checked first. -/
theorem test_add_first_operand_first : (answered (step (State.reset.withFetchWord 24 0x0908A0))).map
    (fun t => t.run) = some (.faulted (.addressFault .regIndex 8)) := by decide
/-- V30. -/
theorem test_mul_low_byte : (answered (step (testState 0 [0xA2#8, 0x00#8, 0x01#8] #v[200#8, 2#8, 0#8, 0#8, 0#8, 0#8, 0#8, 0#8]))).map
    (fun t => (t.readReg 0, t.pc)) = some (144#8, 3) := by decide
/-- V33: the second operand is checked before the write. -/
theorem test_mul_second_operand : (answered (step (testState 0 [0xA2#8, 0x00#8, 0x0C#8] #v[1#8, 0#8, 0#8, 0#8, 0#8, 0#8, 0#8, 0#8]))).map
    (fun t => (t.run, t.readReg 0)) = some (.faulted (.addressFault .regIndex 12), 1#8) := by decide
/-- V41: PUSH R7 pushes the decremented stack pointer. -/
theorem test_push_r7 : (answered (step (State.reset.withFetchWord 16 0x0745))).map
    (fun t => (t.sp, t.mem.read 0xF2, t.pc)) = some (0xF2#8, 0xF2#8, 2) := by decide
/-- V43: a PUSH over its own opcode byte is unaffected. -/
theorem test_push_over_itself : (answered (step (testState 0 [0x45#8, 0x00#8] #v[9#8, 0#8, 0#8, 0#8, 0#8, 0#8, 0#8, 1#8]))).map
    (fun t => (t.sp, t.mem.read 0, t.pc)) = some (0#8, 9#8, 2) := by decide
/-- V46: POP R7 leaves the popped byte plus one. -/
theorem test_pop_r7 : (answered (step (testState 0 [0x46#8, 0x07#8] #v[0#8, 0#8, 0#8, 0#8, 0#8, 0#8, 0#8, 0xF2#8] [(0xF2, 0x10#8)]))).map
    (fun t => (t.sp, t.pc)) = some (0x11#8, 2) := by decide
/-- V47: a POP that faults keeps its register. -/
theorem test_pop_at_255 : (answered (step (testState 0 [0x46#8, 0x00#8] #v[0#8, 0#8, 0#8, 0#8, 0#8, 0#8, 0#8, 255#8] [(255, 3#8)]))).map
    (fun t => (t.run, t.readReg 0)) = some (.faulted (.addressFault .spRange 255), 0#8) := by decide
/-- V61: CALL R7 jumps to the decremented stack pointer. -/
theorem test_call_r7 : (answered (step (testState 10 [0x50#8, 0x07#8] #v[0#8, 0#8, 0#8, 0#8, 0#8, 0#8, 0#8, 0xF3#8]))).map
    (fun t => (t.pc, t.sp, t.mem.read 0xF2)) = some (242, 0xF2#8, 12#8) := by decide
/-- V63: the largest return address. -/
theorem test_call_at_253 : (answered (step (testState 253 [0x50#8, 0x01#8] #v[0#8, 20#8, 0#8, 0#8, 0#8, 0#8, 0#8, 0xF3#8]))).map
    (fun t => (t.pc, t.mem.read 0xF2)) = some (20, 255#8) := by decide
/-- V68. -/
theorem test_ret : (answered (step (testState 5 [0x11#8] #v[0#8, 0#8, 0#8, 0#8, 0#8, 0#8, 0#8, 254#8] [(254, 255#8)]))).map
    (fun t => (t.pc, t.sp)) = some (255, 255#8) := by decide
/-- V67. -/
theorem test_ret_at_255 : (answered (step (testState 5 [0x11#8] #v[0#8, 0#8, 0#8, 0#8, 0#8, 0#8, 0#8, 255#8]))).map
    (fun t => (t.run, t.pc)) = some (.faulted (.addressFault .spRange 255), 5) := by decide
/-- V1: a reset machine with nothing loaded. -/
theorem test_reset_decode_fault : (answered (step State.reset)).map (fun t => t.run) = some (.faulted (.decodeFault 0 0#8)) := by decide
/-- R242, D14: an image of 257 bytes is a LoadError. -/
theorem test_load_too_long (image : List Byte) (h : image.length = 257) :
    load (.image image) State.reset = .refused (.loadError (.imageTooLong 257)) := by
  have hc : constructed State.reset = true := by decide
  simp only [load, hc, if_true, loadImage, h]
  rfl
/-- R212, I11: a missing source is a LoadError. -/
theorem test_load_missing : load .missing State.reset = .refused (.loadError .sourceMissing) := rfl
/-- R6, D24: no load into a machine whose first cycle, the HLT of a one-byte program, is over. -/
theorem test_load_after_halt : load (.image [0x01#8]) (halt State.reset) = .refused .loadNotBeforeFirstCycle := rfl
/-- R200, D11. -/
theorem test_fault_codes : (FaultRecord.decodeFault 0 0#8).code = 1 ∧ (FaultRecord.addressFault .spRange 0).code = 5 := by decide

/-! ## Witnesses: a concrete state and operands that meet the hypotheses of each statement, and of each of its clauses -/

theorem witness_ExactlyNineOpcodeBytesDecode : isOpcode 0#8 = false ∧ isOpcode 0x12#8 = false ∧ isOpcode 0x01#8 = true ∧ isOpcode 0xA2#8 = true := by
  decide
theorem witness_AssemblyTextAssemblesToEncoding : wellFormed (.ldi 7#8 255#8) = true ∧ wellFormed .ret = true := by decide

/-- A machine about to run bytes at an address, the stack pointer at a value. -/
def ready (pc : Nat) (bytes : List Byte) (sp : Byte) : State :=
  testState pc bytes #v[1#8, 2#8, 0#8, 0#8, 0#8, 0#8, 0#8, sp]

theorem witness_StepRunsDecodedInstruction :
    (ready 253 [0x82#8, 0x07#8, 0xFF#8] 0#8).run = .running ∧ (ready 253 [0x82#8, 0x07#8, 0xFF#8] 0#8).pc ≤ 253 ∧
      decode [(ready 253 [0x82#8, 0x07#8, 0xFF#8] 0#8).mem.read 253, (ready 253 [0x82#8, 0x07#8, 0xFF#8] 0#8).mem.read 254,
        (ready 253 [0x82#8, 0x07#8, 0xFF#8] 0#8).mem.read 255] = .ok (.ldi 7#8 255#8, []) :=
  ⟨rfl, by decide, rfl⟩
theorem witness_FetchOutsideMemoryFaults :
    (ready 256 [] 0#8).run = .running ∧ 255 < (ready 256 [] 0#8).pc ∧ (ready 255 [0x01#8] 0#8).pc = 255 ∧ (ready 254 [0x01#8] 0#8).pc = 254 := by
  decide
theorem witness_UndefinedOpcodeRaisesDecodeFault :
    (ready 253 [0xC0#8] 0#8).run = .running ∧ (ready 253 [0xC0#8] 0#8).pc ≤ 253 ∧ isOpcode ((ready 253 [0xC0#8] 0#8).mem.read 253) = false := by
  decide
theorem witness_StoppedMachineStaysAsItIs :
    (halt State.reset).run ≠ .running ∧ (raise (.addressFault .fetch 256) State.reset).run ≠ .running := by decide
theorem witness_FaultsArePrecise :
    ∃ t, (ready 0 [0x45#8, 0x00#8] 0#8).run = .running ∧ step (ready 0 [0x45#8, 0x00#8] 0#8) = .next t ∧
      t.run = .faulted (.addressFault .spRange 0) := ⟨_, rfl, rfl, rfl⟩
theorem witness_CycleFaultIsTheFirstCondition :
    ∃ t, (ready 0 [0x46#8, 0x08#8] 255#8).run = .running ∧ step (ready 0 [0x46#8, 0x08#8] 255#8) = .next t ∧
      t.run = .faulted (.addressFault .regIndex 8) := ⟨_, rfl, rfl, rfl⟩
theorem witness_MemoryAndAluFaultsAreNeverRaised :
    ∃ t, (ready 0 [0x11#8] 255#8).run = .running ∧ step (ready 0 [0x11#8] 255#8) = .next t := ⟨_, rfl, rfl⟩
theorem witness_OnlyHltHalts :
    ∃ t, (ready 253 [0x01#8] 0#8).run = .running ∧ step (ready 253 [0x01#8] 0#8) = .next t ∧ t.run = .halted := ⟨_, rfl, rfl, rfl⟩
theorem witness_PcChangesInExactlyThreeWays_advance :
    ∃ t, step (ready 253 [0xA0#8, 0x00#8, 0x01#8] 0#8) = .next t ∧ t.run = .running ∧ (ready 253 [0xA0#8, 0x00#8, 0x01#8] 0#8).mem.read 253 = 0xA0#8 :=
  ⟨_, rfl, rfl, by decide⟩
theorem witness_PcChangesInExactlyThreeWays_call :
    ∃ t, step (ready 253 [0x50#8, 0x07#8] 1#8) = .next t ∧ t.run = .running ∧ (ready 253 [0x50#8, 0x07#8] 1#8).mem.read 253 = 0x50#8 :=
  ⟨_, rfl, rfl, by decide⟩
theorem witness_PcChangesInExactlyThreeWays_ret :
    ∃ t, step (ready 253 [0x11#8] 254#8) = .next t ∧ t.run = .running ∧ (ready 253 [0x11#8] 254#8).mem.read 253 = 0x11#8 :=
  ⟨_, rfl, rfl, by decide⟩
theorem witness_PcChangesInExactlyThreeWays_stop :
    ∃ t, step (ready 0 [0x01#8] 254#8) = .next t ∧ t.run ≠ .running := ⟨_, rfl, by decide⟩
theorem witness_OutputGrowsOnlyByPrn :
    ∃ t, (ready 0 [0x47#8, 0x00#8] 0#8).run = .running ∧ step (ready 0 [0x47#8, 0x00#8] 0#8) = .next t ∧ t.out = [1#8] := ⟨_, rfl, rfl, rfl⟩
theorem witness_LatchIsNotVisibleBetweenCycles : State.reset.run = .running ∧ State.reset.pc ≤ 253 := by decide
theorem witness_StepKeepsInvariant : State.reset.Inv ∧ ∃ t, step State.reset = .next t :=
  ⟨⟨rfl, by decide, trivial⟩, _, rfl⟩
theorem witness_LoadPlacesImageFromAddressZero :
    ([] : List Byte).length ≤ 256 ∧ (List.replicate 256 0x11#8).length ≤ 256 ∧ 256 < (List.replicate 257 0x11#8).length :=
  ⟨Nat.zero_le _, List.length_replicate.le, by rw [List.length_replicate]; decide⟩
theorem witness_LoadKeepsInvariant : State.reset.Inv ∧ ∃ t, load (.image [0x82#8, 0x00#8, 0x08#8]) State.reset = .next t :=
  ⟨⟨rfl, by decide, trivial⟩, _, rfl⟩
/-- A step that stays RUNNING at address 0 with the stack pointer at its reset value: RET popping 0 (P12). -/
theorem witness_LoadIsRefusedAfterAnyStep :
    ∃ t, step (ready 0 [0x11#8] 0xF3#8) = .next t ∧ t.run = .running ∧ t.pc = 0 := ⟨_, rfl, rfl, rfl⟩
theorem witness_RunEndsInExactlyOneWay_normal : endsNormally (ready 0 [0x01#8] 0#8) := ⟨1, _, rfl, rfl⟩
theorem witness_RunEndsInExactlyOneWay_fault : endsInFault State.reset (.decodeFault 0 0#8) := ⟨1, _, rfl, rfl⟩
theorem witness_LdiLoadsImmediate : (7#8).toNat = (7 : Fin 8).val ∧ 8 ≤ (8#8).toNat := by decide
theorem witness_PrnAppendsRegisterValue : (7#8).toNat = (7 : Fin 8).val ∧ 8 ≤ (255#8).toNat := by decide
theorem witness_AddStoresSumModulo256 :
    ((7#8).toNat = (7 : Fin 8).val ∧ (0#8).toNat = (0 : Fin 8).val) ∧ 8 ≤ (8#8).toNat ∧ ((7#8).toNat < 8 ∧ 8 ≤ (8#8).toNat) := by decide
theorem witness_MulStoresProductModulo256 :
    ((0#8).toNat = (0 : Fin 8).val ∧ (7#8).toNat = (7 : Fin 8).val) ∧ 8 ≤ (8#8).toNat ∧ ((7#8).toNat < 8 ∧ 8 ≤ (8#8).toNat) := by decide
theorem witness_PushStoresBelowStackTop :
    ((7#8).toNat = (7 : Fin 8).val ∧ (ready 0 [] 1#8).sp.toNat ≠ 0) ∧ 8 ≤ (8#8).toNat ∧ ((7#8).toNat < 8 ∧ (ready 0 [] 0#8).sp.toNat = 0) := by decide
theorem witness_PopTakesStackTop_register :
    (6#8).toNat = (6 : Fin 8).val ∧ (6 : Fin 8) ≠ 7 ∧ (ready 0 [] 254#8).sp.toNat ≠ 255 ∧ 8 ≤ (8#8).toNat ∧
      ((6#8).toNat < 7 ∧ (ready 0 [] 255#8).sp.toNat = 255) := by decide
theorem witness_PopTakesStackTop_r7 :
    (7#8).toNat = 7 ∧ (testState 254 [254#8] #v[0#8, 0#8, 0#8, 0#8, 0#8, 0#8, 0#8, 254#8]).mem.read 254 = 254#8 ∧
      (testState 255 [255#8] #v[0#8, 0#8, 0#8, 0#8, 0#8, 0#8, 0#8, 255#8]).mem.read 255 = 255#8 := by decide
theorem witness_CallPushesReturnAddressAndJumps :
    ((7#8).toNat = (7 : Fin 8).val ∧ (ready 253 [] 1#8).sp.toNat ≠ 0 ∧ (ready 253 [] 1#8).pc ≤ 253) ∧ 8 ≤ (8#8).toNat ∧
      ((7#8).toNat < 8 ∧ (ready 0 [] 0#8).sp.toNat = 0) := by decide
theorem witness_RetPopsProgramCounter : (ready 0 [] 254#8).sp.toNat ≠ 255 ∧ (ready 0 [] 255#8).sp.toNat = 255 := by decide
theorem witness_RegIndexFaultExactlyWhenIllFormed :
    ∃ t, (ready 0 [] 0#8).run = .running ∧ exec (.push 8#8) (ready 0 [] 0#8) = .next t ∧ wellFormed (.push 8#8) = false := ⟨_, rfl, rfl, by decide⟩
theorem witness_OnlyTableRegistersAreWritten :
    ∃ t, exec (.pop 6#8) (ready 0 [] 254#8) = .next t ∧ writesRegister 5 (.pop 6#8) = false := ⟨_, rfl, by decide⟩
theorem witness_OnlyTableRegistersAreRead :
    readsRegister 6 (.pop 6#8) = false ∧ readsRegister 0 (.push 1#8) = false ∧
      (readsRegister 7 (.ldi 7#8 1#8) = false ∧ writesRegister 7 (.ldi 7#8 1#8) = true ∧ handlerFault (.ldi 7#8 1#8) State.reset = none) ∧
      (writesRegister 6 (.pop 6#8) = true ∧ handlerFault (.pop 6#8) (ready 0 [] 254#8) = none) := by decide
theorem witness_NonStoringInstructionsKeepMemory :
    ∃ t, (∀ a, Instr.pop 6#8 ≠ .push a) ∧ (∀ a, Instr.pop 6#8 ≠ .call a) ∧ exec (.pop 6#8) (ready 0 [] 254#8) = .next t :=
  ⟨_, by simp, by simp, rfl⟩
theorem witness_StoringInstructionsKeepOtherBytes_stores :
    ∃ t lowered, exec (.push 0#8) (ready 0 [] 1#8) = .next t ∧ decrementSp (ready 0 [] 1#8) = .ok lowered ∧ stackTop lowered = 0 :=
  ⟨_, _, rfl, rfl, rfl⟩
theorem witness_StoringInstructionsKeepOtherBytes_raises :
    ∃ t u f, exec (.call 0#8) (ready 0 [] 0#8) = .next t ∧ decrementSp (ready 0 [] 0#8) = .error f ∧
      exec (.push 8#8) (ready 0 [] 1#8) = .next u ∧ 8 ≤ (8#8).toNat := ⟨_, _, _, rfl, rfl, rfl, by decide⟩
theorem witness_OnlyNamedInstructionsTouchOutputAndRun :
    ∃ t, exec (.call 0#8) (ready 0 [] 0#8) = .next t ∧ (∀ a, Instr.call 0#8 ≠ .prn a) ∧ Instr.call 0#8 ≠ .hlt := ⟨_, rfl, by simp, by simp⟩
theorem witness_MemoryPrimitivesAreChecked : (255 : Nat) ≤ 255 ∧ (255 : Nat) < 256 := by decide
theorem witness_CanonicalMemoriesReadingAlikeAreEqual :
    Memory.wf [(0, 1#8), (255, 2#8)] = true ∧ Memory.wf (Memory.write [(255, 2#8)] 0 1#8) = true := by decide
theorem witness_PushThenPopRestoresRegisterAndSp : (7#8).toNat = (7 : Fin 8).val ∧ (ready 0 [] 1#8).sp.toNat ≠ 0 := by decide
theorem witness_PushThenPopCopiesLastInFirstOut :
    ((0#8).toNat = (0 : Fin 8).val ∧ (1#8).toNat = (1 : Fin 8).val ∧ (2#8).toNat = (2 : Fin 8).val ∧ (6#8).toNat = (6 : Fin 8).val) ∧
      ((0 : Fin 8) ≠ 7 ∧ (1 : Fin 8) ≠ 7 ∧ (2 : Fin 8) ≠ 7 ∧ (6 : Fin 8) ≠ 7 ∧ (2 : Fin 8) ≠ 6) ∧ (ready 0 [] 1#8).sp.toNat ≠ 0 ∧
      1 < (ready 0 [] 2#8).sp.toNat := by decide
theorem witness_CallThenRetResumesAfterCall :
    ∃ t, (ready 253 [] 1#8).run = .running ∧ (ready 253 [] 1#8).pc ≤ 253 ∧ exec (.call 1#8) (ready 253 [] 1#8) = .next t ∧
      t.run = .running ∧ t.sp = t.sp ∧ t.mem.read (stackTop t) = t.mem.read (stackTop t) := ⟨_, rfl, by decide, rfl, rfl, rfl, rfl⟩
/-- A PUSH whose store is the next opcode: a HLT (register 0 holds 1), at the last address from which the next fetch fits. -/
theorem witness_StoreIsSeenByTheNextFetchOnly_push :
    (ready 251 [0x45#8, 0x00#8] 254#8).run = .running ∧ (ready 251 [0x45#8, 0x00#8] 254#8).pc ≤ 253 ∧
      (ready 251 [0x45#8, 0x00#8] 254#8).mem.read 251 = 0x45#8 ∧ ((ready 251 [0x45#8, 0x00#8] 254#8).mem.read 252).toNat = (0 : Fin 8).val ∧
      (ready 251 [0x45#8, 0x00#8] 254#8).sp.toNat ≠ 0 ∧ (ready 251 [0x45#8, 0x00#8] 254#8).readReg 0 = 0x01#8 ∧ 251 + 2 ≤ 253 ∧
      decode [readAfterStore (ready 251 [0x45#8, 0x00#8] 254#8).mem 253 0x01#8 253, readAfterStore (ready 251 [0x45#8, 0x00#8] 254#8).mem 253 0x01#8 254,
        readAfterStore (ready 251 [0x45#8, 0x00#8] 254#8).mem 253 0x01#8 255] = .ok (.hlt, [0#8, 0#8]) :=
  ⟨rfl, by decide, by decide, by decide, by decide, by decide, by decide, rfl⟩
/-- A CALL R7 whose target is the return address it has just stored, an undefined byte, at the lowest stack address. -/
theorem witness_StoreIsSeenByTheNextFetchOnly_call :
    (ready 10 [0x50#8, 0x07#8] 1#8).run = .running ∧ (ready 10 [0x50#8, 0x07#8] 1#8).pc ≤ 253 ∧
      (ready 10 [0x50#8, 0x07#8] 1#8).mem.read 10 = 0x50#8 ∧ ((ready 10 [0x50#8, 0x07#8] 1#8).mem.read 11).toNat = (7 : Fin 8).val ∧
      (ready 10 [0x50#8, 0x07#8] 1#8).sp.toNat ≠ 0 ∧
      isOpcode (readAfterStore (ready 10 [0x50#8, 0x07#8] 1#8).mem 0 (BitVec.ofNat 8 (10 + 2)) 0) = false := by decide
/-- A PUSH whose store is its own operand byte. -/
theorem witness_StoreIsSeenByTheNextFetchOnly_own :
    (ready 0 [0x45#8, 0x00#8] 2#8).sp.toNat - 1 = 0 + 1 ∧ (ready 0 [0x45#8, 0x00#8] 2#8).mem.read 0 = 0x45#8 ∧
      ((ready 0 [0x45#8, 0x00#8] 2#8).mem.read 1).toNat = (0 : Fin 8).val := by decide

end Sys2Proof.Machine
end

section
/-!
PROOFS. What each meaning can do, one lemma per instruction; and the statements of spec/00_scope.md: the load interface is
closed after a step (R6, D24), and the memory primitives are checked (R10).
-/
namespace Sys2Proof.Machine

/-! ## The memory primitives -/

theorem memRead_inside {a : Nat} (s : State) (h : a ≤ 255) : memRead a s = .ok (s.mem.read a) := by
  rw [memRead, if_pos (Nat.lt_succ_of_le h)]

theorem memRead_outside {a : Nat} (s : State) (h : 255 < a) : memRead a s = .error (.addressFault .memory a) := by
  rw [memRead, if_neg (Nat.not_lt.mpr h)]

theorem memWrite_inside {a : Nat} (v : Byte) (s : State) (h : a ≤ 255) :
    memWrite a v s = .ok { s with mem := s.mem.write a v } := by
  rw [memWrite, if_pos (Nat.lt_succ_of_le h)]

theorem memWrite_outside {a : Nat} (v : Byte) (s : State) (h : 255 < a) :
    memWrite a v s = .error (.addressFault .memory a) := by
  rw [memWrite, if_neg (Nat.not_lt.mpr h)]

/-- The frame of a write, as a read sees it: also outside memory, where both reads raise the same fault. -/
theorem memRead_write_other {a b : Nat} (v : Byte) (s : State) (hb : b ≠ a) :
    memRead b { s with mem := s.mem.write a v } = memRead b s := by
  simp only [memRead, Memory.read_write_other s.mem hb]

/-! ## What each meaning can do -/

theorem exec_hlt (s : State) : exec .hlt s = .next (halt s) := rfl

theorem exec_ldi_cases (a imm : Byte) (s : State) :
    (∃ r : Fin 8, a.toNat = r.val ∧ exec (.ldi a imm) s = .next (advance (.ldi a imm) (s.writeReg r imm))) ∨
      (8 ≤ a.toNat ∧ exec (.ldi a imm) s = .next (raise (.addressFault .regIndex a.toNat) s)) := by
  obtain ⟨r, hr, ha⟩ | ⟨hr, ha⟩ := regIndex_cases a
  · exact .inl ⟨r, hr, by rw [exec, execLdi, ha]; rfl⟩
  · exact .inr ⟨hr, by rw [exec, execLdi, ha]; rfl⟩

theorem exec_prn_cases (a : Byte) (s : State) :
    (∃ r : Fin 8, a.toNat = r.val ∧ exec (.prn a) s = .next (advance (.prn a) (emit (s.readReg r) s))) ∨
      (8 ≤ a.toNat ∧ exec (.prn a) s = .next (raise (.addressFault .regIndex a.toNat) s)) := by
  obtain ⟨r, hr, ha⟩ | ⟨hr, ha⟩ := regIndex_cases a
  · exact .inl ⟨r, hr, by rw [exec, execPrn, ha]; rfl⟩
  · exact .inr ⟨hr, by rw [exec, execPrn, ha]; rfl⟩

/-- What ADD and MUL can do, said for any operation and for any instruction `i` whose PC advance ends the handler. -/
theorem complete_binaryHandler_cases (op : Byte → Byte → Byte) (i : Instr) (a b : Byte) (s : State) :
    (∃ r q : Fin 8, a.toNat = r.val ∧ b.toNat = q.val ∧
        complete s (do let t ← binaryHandler op a b s; return advance i t) =
          .next (advance i (s.writeReg r (op (s.readReg r) (s.readReg q))))) ∨
      (8 ≤ a.toNat ∧ complete s (do let t ← binaryHandler op a b s; return advance i t) =
        .next (raise (.addressFault .regIndex a.toNat) s)) ∨
      (a.toNat < 8 ∧ 8 ≤ b.toNat ∧ complete s (do let t ← binaryHandler op a b s; return advance i t) =
        .next (raise (.addressFault .regIndex b.toNat) s)) := by
  obtain ⟨r, q, hr, hq, hb⟩ | ⟨hr, hb⟩ | ⟨hr, hq, hb⟩ := binaryHandler_cases op a b s
  · exact .inl ⟨r, q, hr, hq, by rw [hb]; rfl⟩
  · exact .inr (.inl ⟨hr, by rw [hb]; rfl⟩)
  · exact .inr (.inr ⟨hr, hq, by rw [hb]; rfl⟩)

theorem exec_add_cases (a b : Byte) (s : State) :
    (∃ r q : Fin 8, a.toNat = r.val ∧ b.toNat = q.val ∧
        exec (.add a b) s = .next (advance (.add a b) (s.writeReg r (addResult (s.readReg r) (s.readReg q))))) ∨
      (8 ≤ a.toNat ∧ exec (.add a b) s = .next (raise (.addressFault .regIndex a.toNat) s)) ∨
      (a.toNat < 8 ∧ 8 ≤ b.toNat ∧ exec (.add a b) s = .next (raise (.addressFault .regIndex b.toNat) s)) :=
  complete_binaryHandler_cases addResult (.add a b) a b s

theorem exec_mul_cases (a b : Byte) (s : State) :
    (∃ r q : Fin 8, a.toNat = r.val ∧ b.toNat = q.val ∧
        exec (.mul a b) s = .next (advance (.mul a b) (s.writeReg r (mulResult (s.readReg r) (s.readReg q))))) ∨
      (8 ≤ a.toNat ∧ exec (.mul a b) s = .next (raise (.addressFault .regIndex a.toNat) s)) ∨
      (a.toNat < 8 ∧ 8 ≤ b.toNat ∧ exec (.mul a b) s = .next (raise (.addressFault .regIndex b.toNat) s)) :=
  complete_binaryHandler_cases mulResult (.mul a b) a b s

/-- The state in which PUSH and CALL have lowered the stack pointer and stored a byte at the new stack top (R47, R140, R160). -/
def pushed (v : Byte) (s : State) : State :=
  { s.writeReg Config.spIndex (s.sp - 1#8) with mem := s.mem.write (s.sp.toNat - 1) v }

@[simp] theorem pushed_mem (v : Byte) (s : State) : (pushed v s).mem = s.mem.write (s.sp.toNat - 1) v := rfl
@[simp] theorem pushed_pc (v : Byte) (s : State) : (pushed v s).pc = s.pc := rfl
@[simp] theorem pushed_run (v : Byte) (s : State) : (pushed v s).run = s.run := rfl
@[simp] theorem pushed_out (v : Byte) (s : State) : (pushed v s).out = s.out := rfl
@[simp] theorem pushed_latch (v : Byte) (s : State) : (pushed v s).latch = s.latch := rfl
@[simp] theorem readReg_pushed (v : Byte) (s : State) (r : Fin 8) :
    (pushed v s).readReg r = (s.writeReg Config.spIndex (s.sp - 1#8)).readReg r := rfl

/-- The checked store of a lowered stack pointer is `pushed`. -/
theorem memWrite_decremented {s : State} (v : Byte) (h : s.sp.toNat ≠ 0) :
    memWrite (stackTop (s.writeReg Config.spIndex (s.sp - 1#8))) v (s.writeReg Config.spIndex (s.sp - 1#8)) =
      .ok (pushed v s) := by
  rw [stackTop_decremented h, memWrite_below_sp]
  rfl

theorem exec_push_cases (a : Byte) (s : State) :
    (∃ r : Fin 8, a.toNat = r.val ∧ s.sp.toNat ≠ 0 ∧
        exec (.push a) s =
          .next (advance (.push a) (pushed ((s.writeReg Config.spIndex (s.sp - 1#8)).readReg r) s))) ∨
      (8 ≤ a.toNat ∧ exec (.push a) s = .next (raise (.addressFault .regIndex a.toNat) s)) ∨
      (a.toNat < 8 ∧ s.sp.toNat = 0 ∧ exec (.push a) s = .next (raise (.addressFault .spRange 0) s)) := by
  obtain ⟨r, hr, ha⟩ | ⟨hr, ha⟩ := regIndex_cases a
  · obtain ⟨hsp, hd⟩ | ⟨hsp, hd⟩ := decrementSp_cases s
    · refine .inl ⟨r, hr, hsp, ?_⟩
      simp only [exec, execPush, ha, hd, bind, Except.bind, memWrite_decremented _ hsp]
      rfl
    · exact .inr (.inr ⟨hr ▸ r.isLt, hsp, by rw [exec, execPush, ha, hd]; rfl⟩)
  · exact .inr (.inl ⟨hr, by rw [exec, execPush, ha]; rfl⟩)

theorem exec_pop_cases (a : Byte) (s : State) :
    (∃ (r : Fin 8) (u : State), a.toNat = r.val ∧ u = s.writeReg r (s.mem.read s.sp.toNat) ∧ u.sp.toNat ≠ 255 ∧
        exec (.pop a) s = .next (advance (.pop a) (u.writeReg Config.spIndex (u.sp + 1#8)))) ∨
      (8 ≤ a.toNat ∧ exec (.pop a) s = .next (raise (.addressFault .regIndex a.toNat) s)) ∨
      (∃ r : Fin 8, a.toNat = r.val ∧ (s.writeReg r (s.mem.read s.sp.toNat)).sp.toNat = 255 ∧
        exec (.pop a) s = .next (raise (.addressFault .spRange 255) s)) := by
  obtain ⟨r, hr, ha⟩ | ⟨hr, ha⟩ := regIndex_cases a
  · obtain ⟨hsp, hi⟩ | ⟨hsp, hi⟩ := incrementSp_cases (s.writeReg r (s.mem.read s.sp.toNat))
    · refine .inl ⟨r, _, hr, rfl, hsp, ?_⟩
      simp only [exec, execPop, ha, bind, Except.bind, stackTop_eq, memRead_sp, hi]
      rfl
    · refine .inr (.inr ⟨r, hr, hsp, ?_⟩)
      simp only [exec, execPop, ha, bind, Except.bind, stackTop_eq, memRead_sp, hi]
      rfl
  · exact .inr (.inl ⟨hr, by rw [exec, execPop, ha]; rfl⟩)

theorem exec_call_cases (a : Byte) (s : State) :
    (∃ r : Fin 8, a.toNat = r.val ∧ s.sp.toNat ≠ 0 ∧
        exec (.call a) s =
          .next (jumpTo ((s.writeReg Config.spIndex (s.sp - 1#8)).readReg r) (pushed (returnAddress s) s))) ∨
      (8 ≤ a.toNat ∧ exec (.call a) s = .next (raise (.addressFault .regIndex a.toNat) s)) ∨
      (a.toNat < 8 ∧ s.sp.toNat = 0 ∧ exec (.call a) s = .next (raise (.addressFault .spRange 0) s)) := by
  obtain ⟨r, hr, ha⟩ | ⟨hr, ha⟩ := regIndex_cases a
  · obtain ⟨hsp, hd⟩ | ⟨hsp, hd⟩ := decrementSp_cases s
    · refine .inl ⟨r, hr, hsp, ?_⟩
      simp only [exec, execCall, ha, hd, bind, Except.bind, memWrite_decremented _ hsp]
      rfl
    · exact .inr (.inr ⟨hr ▸ r.isLt, hsp, by rw [exec, execCall, ha, hd]; rfl⟩)
  · exact .inr (.inl ⟨hr, by rw [exec, execCall, ha]; rfl⟩)

theorem exec_ret_cases (s : State) :
    (s.sp.toNat ≠ 255 ∧
        exec .ret s = .next (jumpTo (s.mem.read s.sp.toNat) (s.writeReg Config.spIndex (s.sp + 1#8)))) ∨
      (s.sp.toNat = 255 ∧ exec .ret s = .next (raise (.addressFault .spRange 255) s)) := by
  obtain ⟨hsp, hi⟩ | ⟨hsp, hi⟩ := incrementSp_cases s
  · refine .inl ⟨hsp, ?_⟩
    simp only [exec, execRet, hi, bind, Except.bind, stackTop_eq, memRead_sp]
    rfl
  · exact .inr ⟨hsp, by rw [exec, execRet, hi]; rfl⟩

/-! ## No step leads to the constructed machine -/

theorem load_refused_of_not_constructed {t : State} (source : ImageSource) (h : constructed t ≠ true) :
    load source t = .refused .loadNotBeforeFirstCycle := by
  obtain ⟨hc, -⟩ | ⟨-, hl⟩ := load_cases source t
  · exact absurd hc h
  · exact hl

/-- A machine that no longer runs is not the constructed one. -/
theorem not_constructed_of_run {t : State} (h : t.run ≠ .running) : constructed t ≠ true :=
  fun hc => h (constructed_fields hc).1

/-- A machine past address 0 is not the constructed one. -/
theorem not_constructed_of_pc {t : State} (h : t.pc ≠ 0) : constructed t ≠ true :=
  fun hc => h (constructed_fields hc).2.1

/-- A machine whose memory holds a byte other than 0 is not the constructed one. -/
theorem not_constructed_of_mem {t : State} {a : Nat} (h : t.mem.read a ≠ 0#8) : constructed t ≠ true := by
  intro hc
  obtain ⟨-, -, hmem⟩ := constructed_fields hc
  exact h (by rw [hmem]; rfl)

theorem not_constructed_raise (f : FaultRecord) (s : State) : constructed (raise f s) ≠ true :=
  not_constructed_of_run (by simp)

theorem not_constructed_advance (i : Instr) (s : State) : constructed (advance i s) ≠ true :=
  not_constructed_of_pc (by rw [advance_pc]; omega)

/-- The return address of a CALL that a cycle can fetch is at least 2, so the byte CALL stores is not 0. -/
theorem returnAddress_ne_zero {s : State} (h : s.pc ≤ 253) : returnAddress s ≠ 0#8 := by
  intro he
  have : (s.pc + 2) % 256 = 0 := by simpa [returnAddress] using congrArg BitVec.toNat he
  omega

/-- What a meaning leaves behind when a cycle has fetched its opcode. Only CALL and RET can set the PC to 0 in a machine that
goes on running; the CALL has stored its return address, and the RET still has its own opcode byte in memory. -/
theorem exec_not_constructed {i : Instr} {s t : State} (hpc : s.pc ≤ 253) (hop : s.mem.read s.pc = opcodeOf i)
    (h : exec i s = .next t) : constructed t ≠ true := by
  cases i with
  | hlt =>
    cases h
    exact not_constructed_of_run (by simp)
  | ldi a imm =>
    obtain ⟨r, -, he⟩ | ⟨-, he⟩ := exec_ldi_cases a imm s <;> cases he.symm.trans h
    · exact not_constructed_advance _ _
    · exact not_constructed_raise _ _
  | prn a =>
    obtain ⟨r, -, he⟩ | ⟨-, he⟩ := exec_prn_cases a s <;> cases he.symm.trans h
    · exact not_constructed_advance _ _
    · exact not_constructed_raise _ _
  | add a b =>
    obtain ⟨r, q, -, -, he⟩ | ⟨-, he⟩ | ⟨-, -, he⟩ := exec_add_cases a b s <;> cases he.symm.trans h
    · exact not_constructed_advance _ _
    · exact not_constructed_raise _ _
    · exact not_constructed_raise _ _
  | mul a b =>
    obtain ⟨r, q, -, -, he⟩ | ⟨-, he⟩ | ⟨-, -, he⟩ := exec_mul_cases a b s <;> cases he.symm.trans h
    · exact not_constructed_advance _ _
    · exact not_constructed_raise _ _
    · exact not_constructed_raise _ _
  | push a =>
    obtain ⟨r, -, -, he⟩ | ⟨-, he⟩ | ⟨-, -, he⟩ := exec_push_cases a s <;> cases he.symm.trans h
    · exact not_constructed_advance _ _
    · exact not_constructed_raise _ _
    · exact not_constructed_raise _ _
  | pop a =>
    obtain ⟨r, u, -, -, -, he⟩ | ⟨-, he⟩ | ⟨r, -, -, he⟩ := exec_pop_cases a s <;> cases he.symm.trans h
    · exact not_constructed_advance _ _
    · exact not_constructed_raise _ _
    · exact not_constructed_raise _ _
  | call a =>
    obtain ⟨r, -, -, he⟩ | ⟨-, he⟩ | ⟨-, -, he⟩ := exec_call_cases a s <;> cases he.symm.trans h
    · exact not_constructed_of_mem (a := s.sp.toNat - 1) (by simpa using returnAddress_ne_zero hpc)
    · exact not_constructed_raise _ _
    · exact not_constructed_raise _ _
  | ret =>
    obtain ⟨-, he⟩ | ⟨-, he⟩ := exec_ret_cases s <;> cases he.symm.trans h
    · exact not_constructed_of_mem (a := s.pc) (by simp [hop, opcodeOf])
    · exact not_constructed_raise _ _

theorem step_running_not_constructed {s t : State} (hrun : s.run = .running) (h : step s = .next t) :
    constructed t ≠ true := by
  obtain ⟨hpc, i, rest, hd, he⟩ | ⟨-, -, he⟩ | ⟨-, l, he⟩ | ⟨-, he⟩ := step_running_cases hrun
  · exact exec_not_constructed (s := { s with latch := fetchedLatch s }) hpc (opcodeOf_decode_three hd).symm
      (he.symm.trans h)
  · cases he.symm.trans h
    exact not_constructed_raise _ _
  · cases he.symm.trans h
    exact not_constructed_raise _ _
  · cases he.symm.trans h
    exact not_constructed_raise _ _

/-- A step of a machine that does not run answers the machine itself (log entry 2). -/
theorem step_stopped {s : State} (h : s.run ≠ .running) : step s = .next s := by
  rw [step, engine]
  cases hr : s.run with
  | running => exact absurd hr h
  | halted => rfl
  | faulted f => rfl

theorem step_not_constructed {s t : State} (h : step s = .next t) : constructed t ≠ true := by
  by_cases hrun : s.run = .running
  · exact step_running_not_constructed hrun h
  · cases (step_stopped hrun).symm.trans h
    exact not_constructed_of_run hrun

/-! ## The obligations -/

/-- Settles O21: no step leads to the constructed machine, the only one that is loaded. -/
theorem loadIsRefusedAfterAnyStep : Obligations.LoadIsRefusedAfterAnyStep := by
  intro s t source h
  exact load_refused_of_not_constructed source (step_not_constructed h)

/-- Settles O39, by the bounds check of each primitive and the read-after-write laws of memory. -/
theorem memoryPrimitivesAreChecked : Obligations.MemoryPrimitivesAreChecked := by
  intro a v s
  refine ⟨fun ha => ⟨memRead_inside s ha, _, memWrite_inside v s ha, ?_, fun b hb => memRead_write_other v s hb, rfl⟩,
    fun ha => ⟨memRead_outside s ha, memWrite_outside v s ha⟩⟩
  rw [memRead_inside _ ha, Memory.read_write_same]

end Sys2Proof.Machine
end

section
/-!
PROOFS. What a meaning and a step of a running machine can do, each said once, with the first fault condition of R208 on the faulting side;
and the statements of spec/10_state.md: invariant, program counter, output, latch, run state and the register table of R21.
-/
namespace Sys2Proof

/-! ## The fetched bytes of a decoded instruction -/

/-- The operands a row of the table builds an instruction with are the first of the two bytes it is given. -/
theorem operandsOf_build {row : OpcodeRow} (h : row ∈ opcodeTable) (a b : Byte) :
    operandsOf (row.build a b) <+: [a, b] := by
  revert row
  simp [opcodeTable, operandsOf]

/-- A decoded instruction's operands are the bytes fetched after its opcode, in order (R60). -/
theorem operandsOf_decode_three {ir a b : Byte} {i : Instr} {rest : List Byte}
    (h : decode [ir, a, b] = .ok (i, rest)) : operandsOf i <+: [a, b] := by
  obtain ⟨row, hrow, hd⟩ | ⟨-, hd⟩ := decode_three ir a b <;> cases hd.symm.trans h
  exact operandsOf_build (lookupOpcode_some hrow).1 a b

theorem opcodeOf_eq_hlt_iff {i : Instr} : opcodeOf i = 0x01#8 ↔ i = .hlt := by
  cases i <;> simp [opcodeOf]

theorem opcodeOf_eq_call_iff {i : Instr} : opcodeOf i = 0x50#8 ↔ ∃ a, i = .call a := by
  cases i <;> simp [opcodeOf]

theorem opcodeOf_eq_ret_iff {i : Instr} : opcodeOf i = 0x11#8 ↔ i = .ret := by
  cases i <;> simp [opcodeOf]

theorem decode_hlt (rest : List Byte) : decode (0x01#8 :: rest) = .ok (.hlt, rest) := by
  simp [decode, lookupOpcode, opcodeTable, operandCount, bitsOf]

theorem operandCount_opcodeOf_le (i : Instr) : operandCount (opcodeOf i) ≤ 2 := by
  cases i <;> simp [operandCount, bitsOf, opcodeOf]

end Sys2Proof

namespace Sys2Proof.Machine

/-! ## Registers -/

theorem writeReg_writeReg_same (s : State) (r : Fin 8) (v w : Byte) :
    (s.writeReg r v).writeReg r w = s.writeReg r w := by
  simp [State.writeReg]

theorem writeReg_comm (s : State) {r q : Fin 8} (h : r ≠ q) (v w : Byte) :
    (s.writeReg r v).writeReg q w = (s.writeReg q w).writeReg r v := by
  simp only [State.writeReg, Vector.set_comm _ _ (Fin.val_ne_of_ne h)]

theorem sp_writeReg_other (s : State) {r : Fin 8} (h : r ≠ 7) (v : Byte) : (s.writeReg r v).sp = s.sp :=
  readReg_writeReg_other s r 7 v h.symm

/-- A register operand names one register. -/
theorem register_unique {a : Byte} {r q : Fin 8} (hr : a.toNat = r.val) (hq : a.toNat = q.val) : r = q :=
  Fin.ext (hr.symm.trans hq)

theorem register_ne {a : Byte} {r q : Fin 8} (hq : a.toNat = q.val) (hr : a.toNat ≠ r.val) : r ≠ q :=
  fun e => hr (e ▸ hq)

/-! ## The fault conditions -/

theorem regIndexFault_cons_of_lt {b : Byte} (bs : List Byte) (h : b.toNat < 8) :
    regIndexFault (b :: bs) = regIndexFault bs := by
  rw [regIndexFault, if_neg (Nat.not_le.mpr h)]

theorem regIndexFault_cons_of_le {b : Byte} (bs : List Byte) (h : 8 ≤ b.toNat) :
    regIndexFault (b :: bs) = some (.addressFault .regIndex b.toNat) := by
  rw [regIndexFault, if_pos h]

/-- The REG_INDEX condition is about an operand byte of 8..255 (R202). -/
theorem regIndexFault_some {bs : List Byte} {f : FaultRecord} (h : regIndexFault bs = some f) :
    ∃ b : Byte, 8 ≤ b.toNat ∧ f = .addressFault .regIndex b.toNat := by
  induction bs with
  | nil => cases h
  | cons b bs ih =>
    by_cases hb : 8 ≤ b.toNat
    · rw [regIndexFault_cons_of_le bs hb] at h
      cases h
      exact ⟨b, hb, rfl⟩
    · rw [regIndexFault_cons_of_lt bs (Nat.not_le.mp hb)] at h
      exact ih h

/-- The SP_RANGE condition is about a stack pointer of 0 or 255 (R204). -/
theorem spRangeFault_some {s : State} {i : Instr} {f : FaultRecord} (h : spRangeFault s i = some f) :
    f = .addressFault .spRange 0 ∨ f = .addressFault .spRange 255 := by
  cases i with
  | hlt | ldi | prn | add | mul => cases h
  | push | call =>
    rw [spRangeFault] at h
    split at h <;> cases h
    exact .inl rfl
  | pop | ret =>
    rw [spRangeFault] at h
    split at h <;> cases h
    exact .inr rfl

theorem handlerFault_of_regIndexFault {i : Instr} (s : State) {f : FaultRecord}
    (h : regIndexFault (registerOperands i) = some f) : handlerFault i s = some f := by
  rw [handlerFault, h]

theorem handlerFault_of_registers {i : Instr} (s : State) (h : regIndexFault (registerOperands i) = none) :
    handlerFault i s = spRangeFault s i := by
  rw [handlerFault, h]

/-- The fault condition of an instruction depends on the stack pointer and the memory only. -/
theorem handlerFault_congr (i : Instr) {s t : State} (hsp : s.sp = t.sp) (hmem : s.mem = t.mem) :
    handlerFault i s = handlerFault i t := by
  have hpop (a : Byte) : popIncrementsFrom a s = popIncrementsFrom a t := by
    rw [popIncrementsFrom, popIncrementsFrom, hsp, hmem]
  have hrange : spRangeFault s i = spRangeFault t i := by
    cases i <;> simp only [spRangeFault, hsp, hpop]
  rw [handlerFault, handlerFault, hrange]

/-- A handler's fault is REG_INDEX or SP_RANGE, with the information of R200. -/
theorem handlerFault_legalAt {i : Instr} {s : State} {f : FaultRecord} (h : handlerFault i s = some f) {pc : Nat}
    (hpc : pc ≤ 253) : f.legalAt pc := by
  cases hr : regIndexFault (registerOperands i) with
  | some g =>
    obtain ⟨b, hb, rfl⟩ := regIndexFault_some hr
    cases (handlerFault_of_regIndexFault s hr).symm.trans h
    exact ⟨hb, Nat.le_of_lt_succ b.isLt, hpc⟩
  | none =>
    rw [handlerFault_of_registers s hr] at h
    obtain rfl | rfl := spRangeFault_some h
    · exact ⟨.inl rfl, hpc⟩
    · exact ⟨.inr rfl, hpc⟩

/-- The state in which POP has loaded its register and not yet raised the stack pointer (R141). -/
def popLoaded (r : Fin 8) (s : State) : State := s.writeReg r (s.mem.read s.sp.toNat)

theorem popIncrementsFrom_eq {a : Byte} {r : Fin 8} (s : State) (h : a.toNat = r.val) :
    popIncrementsFrom a s = (popLoaded r s).sp := by
  rw [sp_eq, popLoaded, readReg_writeReg, popIncrementsFrom, h]
  exact if_congr (by rw [Fin.ext_iff, eq_comm]; rfl) rfl rfl

/-! ## What a meaning can do -/

/-- The instruction completes in `s` with the state `t`: its register operands name registers, its stack pointer stays in range, and `t`
is what its handler leaves. -/
inductive Completes (s : State) : Instr → State → Prop
  | hlt : Completes s .hlt (halt s)
  | ldi {a imm : Byte} {r : Fin 8} (hr : a.toNat = r.val) :
      Completes s (.ldi a imm) (advance (.ldi a imm) (s.writeReg r imm))
  | prn {a : Byte} {r : Fin 8} (hr : a.toNat = r.val) :
      Completes s (.prn a) (advance (.prn a) (emit (s.readReg r) s))
  | add {a b : Byte} {r q : Fin 8} (hr : a.toNat = r.val) (hq : b.toNat = q.val) :
      Completes s (.add a b) (advance (.add a b) (s.writeReg r (addResult (s.readReg r) (s.readReg q))))
  | mul {a b : Byte} {r q : Fin 8} (hr : a.toNat = r.val) (hq : b.toNat = q.val) :
      Completes s (.mul a b) (advance (.mul a b) (s.writeReg r (mulResult (s.readReg r) (s.readReg q))))
  | push {a : Byte} {r : Fin 8} (hr : a.toNat = r.val) (hsp : s.sp.toNat ≠ 0) :
      Completes s (.push a) (advance (.push a) (pushed ((s.writeReg Config.spIndex (s.sp - 1#8)).readReg r) s))
  | pop {a : Byte} {r : Fin 8} (hr : a.toNat = r.val) (hsp : (popLoaded r s).sp.toNat ≠ 255) :
      Completes s (.pop a) (advance (.pop a) ((popLoaded r s).writeReg Config.spIndex ((popLoaded r s).sp + 1#8)))
  | call {a : Byte} {r : Fin 8} (hr : a.toNat = r.val) (hsp : s.sp.toNat ≠ 0) :
      Completes s (.call a)
        (jumpTo ((s.writeReg Config.spIndex (s.sp - 1#8)).readReg r) (pushed (returnAddress s) s))
  | ret (hsp : s.sp.toNat ≠ 255) :
      Completes s .ret (jumpTo (s.mem.read s.sp.toNat) (s.writeReg Config.spIndex (s.sp + 1#8)))

theorem handlerFault_of_first_operand {i : Instr} {a : Byte} {bs : List Byte} (s : State)
    (hi : registerOperands i = a :: bs) (ha : 8 ≤ a.toNat) :
    handlerFault i s = some (.addressFault .regIndex a.toNat) :=
  handlerFault_of_regIndexFault s (by rw [hi, regIndexFault_cons_of_le bs ha])

theorem handlerFault_of_one_register {i : Instr} {a : Byte} (s : State) (hi : registerOperands i = [a])
    (ha : a.toNat < 8) : handlerFault i s = spRangeFault s i :=
  handlerFault_of_registers s (by rw [hi, regIndexFault_cons_of_lt [] ha, regIndexFault])

theorem handlerFault_of_two_operands {i : Instr} {a b : Byte} (s : State) (hi : registerOperands i = [a, b])
    (ha : a.toNat < 8) :
    handlerFault i s =
      if 8 ≤ b.toNat then some (.addressFault .regIndex b.toNat) else spRangeFault s i := by
  rw [handlerFault, hi, regIndexFault_cons_of_lt [b] ha]
  by_cases hb : 8 ≤ b.toNat
  · rw [regIndexFault_cons_of_le [] hb, if_pos hb]
  · rw [regIndexFault_cons_of_lt [] (Nat.not_le.mp hb), if_neg hb, regIndexFault]

/-- Everything a meaning can do: complete where no fault condition of R207 holds, or enter the first one that does. -/
theorem exec_cases (i : Instr) (s : State) :
    (∃ t, handlerFault i s = none ∧ Completes s i t ∧ exec i s = .next t) ∨
      ∃ f, handlerFault i s = some f ∧ exec i s = .next (raise f s) := by
  cases i with
  | hlt => exact .inl ⟨_, rfl, .hlt, exec_hlt s⟩
  | ldi a imm =>
    obtain ⟨r, hr, he⟩ | ⟨ha, he⟩ := exec_ldi_cases a imm s
    · exact .inl ⟨_, handlerFault_of_one_register s rfl (hr ▸ r.isLt), .ldi hr, he⟩
    · exact .inr ⟨_, handlerFault_of_first_operand s rfl ha, he⟩
  | prn a =>
    obtain ⟨r, hr, he⟩ | ⟨ha, he⟩ := exec_prn_cases a s
    · exact .inl ⟨_, handlerFault_of_one_register s rfl (hr ▸ r.isLt), .prn hr, he⟩
    · exact .inr ⟨_, handlerFault_of_first_operand s rfl ha, he⟩
  | add a b =>
    obtain ⟨r, q, hr, hq, he⟩ | ⟨ha, he⟩ | ⟨ha, hb, he⟩ := exec_add_cases a b s
    · refine .inl ⟨_, ?_, .add hr hq, he⟩
      rw [handlerFault_of_two_operands s rfl (hr ▸ r.isLt), if_neg (by omega), spRangeFault]
    · exact .inr ⟨_, handlerFault_of_first_operand s rfl ha, he⟩
    · exact .inr ⟨_, by rw [handlerFault_of_two_operands s rfl ha, if_pos hb], he⟩
  | mul a b =>
    obtain ⟨r, q, hr, hq, he⟩ | ⟨ha, he⟩ | ⟨ha, hb, he⟩ := exec_mul_cases a b s
    · refine .inl ⟨_, ?_, .mul hr hq, he⟩
      rw [handlerFault_of_two_operands s rfl (hr ▸ r.isLt), if_neg (by omega), spRangeFault]
    · exact .inr ⟨_, handlerFault_of_first_operand s rfl ha, he⟩
    · exact .inr ⟨_, by rw [handlerFault_of_two_operands s rfl ha, if_pos hb], he⟩
  | push a =>
    obtain ⟨r, hr, hsp, he⟩ | ⟨ha, he⟩ | ⟨ha, hsp, he⟩ := exec_push_cases a s
    · refine .inl ⟨_, ?_, .push hr hsp, he⟩
      rw [handlerFault_of_one_register s rfl (hr ▸ r.isLt), spRangeFault, if_neg hsp]
    · exact .inr ⟨_, handlerFault_of_first_operand s rfl ha, he⟩
    · exact .inr ⟨_, by rw [handlerFault_of_one_register s rfl ha, spRangeFault, if_pos hsp], he⟩
  | pop a =>
    obtain ⟨r, _, hr, rfl, hsp, he⟩ | ⟨ha, he⟩ | ⟨r, hr, hsp, he⟩ := exec_pop_cases a s
    · refine .inl ⟨_, ?_, .pop hr hsp, he⟩
      rw [handlerFault_of_one_register s rfl (hr ▸ r.isLt), spRangeFault, popIncrementsFrom_eq s hr]
      exact if_neg hsp
    · exact .inr ⟨_, handlerFault_of_first_operand s rfl ha, he⟩
    · refine .inr ⟨_, ?_, he⟩
      rw [handlerFault_of_one_register s rfl (hr ▸ r.isLt), spRangeFault, popIncrementsFrom_eq s hr]
      exact if_pos hsp
  | call a =>
    obtain ⟨r, hr, hsp, he⟩ | ⟨ha, he⟩ | ⟨ha, hsp, he⟩ := exec_call_cases a s
    · refine .inl ⟨_, ?_, .call hr hsp, he⟩
      rw [handlerFault_of_one_register s rfl (hr ▸ r.isLt), spRangeFault, if_neg hsp]
    · exact .inr ⟨_, handlerFault_of_first_operand s rfl ha, he⟩
    · exact .inr ⟨_, by rw [handlerFault_of_one_register s rfl ha, spRangeFault, if_pos hsp], he⟩
  | ret =>
    obtain ⟨hsp, he⟩ | ⟨hsp, he⟩ := exec_ret_cases s
    · exact .inl ⟨_, (handlerFault_of_registers s rfl).trans (if_neg hsp), .ret hsp, he⟩
    · exact .inr ⟨_, (handlerFault_of_registers s rfl).trans (if_pos hsp), he⟩

/-- A meaning that answers `t` has completed with it, or `t` is the state it began in with its fault entered. -/
theorem exec_next_cases {i : Instr} {s t : State} (h : exec i s = .next t) :
    (handlerFault i s = none ∧ Completes s i t) ∨ ∃ f, handlerFault i s = some f ∧ t = raise f s := by
  obtain ⟨u, hf, hc, he⟩ | ⟨f, hf, he⟩ := exec_cases i s <;> cases he.symm.trans h
  · exact .inl ⟨hf, hc⟩
  · exact .inr ⟨f, hf, rfl⟩

theorem exec_answers (i : Instr) (s : State) : ∃ t, exec i s = .next t := by
  obtain ⟨t, -, -, he⟩ | ⟨f, -, he⟩ := exec_cases i s
  · exact ⟨t, he⟩
  · exact ⟨raise f s, he⟩

theorem exec_of_handlerFault {i : Instr} {s : State} {f : FaultRecord} (h : handlerFault i s = some f) :
    exec i s = .next (raise f s) := by
  obtain ⟨t, hf, -, -⟩ | ⟨g, hf, he⟩ := exec_cases i s <;> cases hf.symm.trans h
  exact he

/-! ## What completing leaves -/

section
variable {s t u : State} {i : Instr}

/-- At most one state is left by completing an instruction. -/
theorem Completes.unique (h : Completes s i t) (h' : Completes s i u) : t = u := by
  cases h with
  | hlt | ret => cases h'; rfl
  | ldi hr => cases h' with | ldi hr' => cases register_unique hr hr'; rfl
  | prn hr => cases h' with | prn hr' => cases register_unique hr hr'; rfl
  | add hr hq => cases h' with | add hr' hq' => cases register_unique hr hr'; cases register_unique hq hq'; rfl
  | mul hr hq => cases h' with | mul hr' hq' => cases register_unique hr hr'; cases register_unique hq hq'; rfl
  | push hr => cases h' with | push hr' => cases register_unique hr hr'; rfl
  | pop hr => cases h' with | pop hr' => cases register_unique hr hr'; rfl
  | call hr => cases h' with | call hr' => cases register_unique hr hr'; rfl

theorem exec_of_completes (hf : handlerFault i s = none) (h : Completes s i t) : exec i s = .next t := by
  obtain ⟨u, -, hc, he⟩ | ⟨f, hf', -⟩ := exec_cases i s
  · rw [he, h.unique hc]
  · cases hf.symm.trans hf'

theorem Completes.latch (h : Completes s i t) : t.latch = s.latch := by
  cases h <;> rfl

theorem Completes.run (h : Completes s i t) : t.run = if i = .hlt then .halted else s.run := by
  cases h <;> rfl

theorem Completes.halted_iff (h : Completes s i t) (hrun : s.run = .running) : t.run = .halted ↔ i = .hlt := by
  rw [h.run, hrun]
  split
  · next hi => exact iff_of_true rfl hi
  · next hi => exact iff_of_false nofun hi

theorem Completes.running_iff (h : Completes s i t) (hrun : s.run = .running) : t.run = .running ↔ i ≠ .hlt := by
  rw [h.run, hrun]
  split
  · next hi => exact iff_of_false nofun (not_not.mpr hi)
  · next hi => exact iff_of_true rfl hi

theorem Completes.out (h : Completes s i t) :
    t.out = s.out ∨ ∃ (a : Byte) (r : Fin 8), i = .prn a ∧ a.toNat = r.val ∧ t.out = s.out ++ [s.readReg r] := by
  cases h with
  | prn hr => exact .inr ⟨_, _, rfl, hr, rfl⟩
  | _ => exact .inl rfl

/-- Completing stores at most at an address inside memory, so memory stays canonical. -/
theorem Completes.mem_wf (h : Completes s i t) (hm : s.mem.wf = true) : t.mem.wf = true := by
  cases h with
  | push | call =>
    have hsp := s.sp.isLt
    exact Memory.wf_write hm (by omega) _
  | _ => exact hm

theorem Completes.pc_advance (h : Completes s i t) (hhlt : i ≠ .hlt) (hcall : ∀ a, i ≠ .call a) (hret : i ≠ .ret) :
    t.pc = s.pc + 1 + operandCount (opcodeOf i) := by
  cases h with
  | hlt => exact absurd rfl hhlt
  | call => exact absurd rfl (hcall _)
  | ret => exact absurd rfl hret
  | _ => rfl

/-- From an address a cycle can fetch at, completing leaves the PC inside memory or one past it (R25). -/
theorem Completes.pc_le (h : Completes s i t) (hpc : s.pc ≤ 253) : t.pc ≤ 256 := by
  cases h with
  | hlt => exact hpc.trans (by decide)
  | call | ret => exact Nat.le_of_lt (BitVec.isLt _)
  | _ => exact Nat.add_le_add (Nat.succ_le_succ hpc) (operandCount_opcodeOf_le _)

/-- The register frame of completing (the last column of R21). -/
theorem Completes.readReg (h : Completes s i t) {r : Fin 8} (hw : writesRegister r i = false) :
    t.readReg r = s.readReg r := by
  cases h with
  | hlt | prn => rfl
  | ldi hq | add hq | mul hq => exact readReg_writeReg_other _ _ _ _ (register_ne hq (of_decide_eq_false hw))
  | push | call | ret => exact readReg_writeReg_other _ _ _ _ (of_decide_eq_false hw)
  | pop hq =>
    obtain ⟨ha, h7⟩ := Bool.or_eq_false_iff.mp hw
    exact (readReg_writeReg_other _ _ _ _ (of_decide_eq_false h7)).trans
      (readReg_writeReg_other _ _ _ _ (register_ne hq (of_decide_eq_false ha)))

/-! ## The registers a meaning reads -/

theorem popLoaded_writeReg_other (s : State) {r q : Fin 8} (h7 : r ≠ 7) (h : r ≠ q) (v : Byte) :
    popLoaded q (s.writeReg r v) = (popLoaded q s).writeReg r v := by
  rw [popLoaded, sp_writeReg_other s h7, writeReg_comm s h]
  rfl

theorem popLoaded_writeReg_same (s : State) {r : Fin 8} (h7 : r ≠ 7) (v : Byte) :
    popLoaded r (s.writeReg r v) = popLoaded r s := by
  rw [popLoaded, sp_writeReg_other s h7, writeReg_writeReg_same]
  rfl

theorem pushed_writeReg (s : State) {r : Fin 8} (h7 : r ≠ 7) (v w : Byte) :
    pushed w (s.writeReg r v) = (pushed w s).writeReg r v := by
  rw [pushed, sp_writeReg_other s h7, writeReg_comm s h7]
  rfl

/-- What ADD and MUL write does not depend on a register that neither operand names. -/
theorem writeReg_binary_unread (op : Byte → Byte → Byte) (s : State) {r q p : Fin 8} (hq : r ≠ q) (hp : r ≠ p)
    (v : Byte) :
    (s.writeReg r v).writeReg q (op ((s.writeReg r v).readReg q) ((s.writeReg r v).readReg p)) =
      (s.writeReg q (op (s.readReg q) (s.readReg p))).writeReg r v := by
  rw [readReg_writeReg_other _ _ _ _ hq.symm, readReg_writeReg_other _ _ _ _ hp.symm, writeReg_comm s hq]

/-- What PUSH and CALL read after the decrement does not depend on a register that they do not name. -/
theorem readReg_decremented_unread (s : State) {r q : Fin 8} (h7 : r ≠ 7) (hq : r ≠ q) (v : Byte) :
    ((s.writeReg r v).writeReg Config.spIndex ((s.writeReg r v).sp - 1#8)).readReg q =
      (s.writeReg Config.spIndex (s.sp - 1#8)).readReg q := by
  rw [sp_writeReg_other s h7, writeReg_comm s h7, readReg_writeReg_other _ _ _ _ hq.symm]

/-- The fault condition of an instruction does not depend on a register it does not read. -/
theorem handlerFault_writeReg {r : Fin 8} (hr : readsRegister r i = false) (v : Byte) :
    handlerFault i (s.writeReg r v) = handlerFault i s := by
  cases i with
  | hlt | ldi | prn | add | mul => rfl
  | push | call =>
    obtain ⟨h7, -⟩ := Bool.or_eq_false_iff.mp hr
    exact handlerFault_congr _ (sp_writeReg_other s (of_decide_eq_false h7) v) rfl
  | pop | ret => exact handlerFault_congr _ (sp_writeReg_other s (of_decide_eq_false hr) v) rfl

theorem Completes.of_eq (h : Completes s i t) (e : t = u) : Completes s i u := e ▸ h

/-- A register the instruction neither reads nor writes is carried along. -/
theorem Completes.writeReg_unread_unwritten (h : Completes s i t) {r : Fin 8} (hr : readsRegister r i = false)
    (hw : writesRegister r i = false) (v : Byte) : Completes (s.writeReg r v) i (t.writeReg r v) := by
  cases h with
  | hlt => exact .hlt
  | ldi hq =>
    refine (Completes.ldi hq).of_eq ?_
    rw [writeReg_comm s (register_ne hq (of_decide_eq_false hw))]
    rfl
  | prn hq =>
    refine (Completes.prn hq).of_eq ?_
    rw [readReg_writeReg_other _ _ _ _ (register_ne hq (of_decide_eq_false hr)).symm]
    rfl
  | add hq hp =>
    obtain ⟨ha, hb⟩ := Bool.or_eq_false_iff.mp hr
    exact (Completes.add hq hp).of_eq (congrArg (advance _) (writeReg_binary_unread _ s
      (register_ne hq (of_decide_eq_false ha)) (register_ne hp (of_decide_eq_false hb)) v))
  | mul hq hp =>
    obtain ⟨ha, hb⟩ := Bool.or_eq_false_iff.mp hr
    exact (Completes.mul hq hp).of_eq (congrArg (advance _) (writeReg_binary_unread _ s
      (register_ne hq (of_decide_eq_false ha)) (register_ne hp (of_decide_eq_false hb)) v))
  | push hq hsp =>
    obtain ⟨h7, ha⟩ := Bool.or_eq_false_iff.mp hr
    have h7 := of_decide_eq_false h7
    refine (Completes.push hq ((sp_writeReg_other s h7 v).symm ▸ hsp)).of_eq ?_
    rw [readReg_decremented_unread s h7 (register_ne hq (of_decide_eq_false ha)), pushed_writeReg s h7]
    rfl
  | pop hq hsp =>
    have h7 := of_decide_eq_false hr
    have hload := popLoaded_writeReg_other s h7 (register_ne hq (of_decide_eq_false (Bool.or_eq_false_iff.mp hw).1)) v
    have hsp' := (congrArg State.sp hload).trans (sp_writeReg_other _ h7 v)
    refine (Completes.pop hq (hsp'.symm ▸ hsp)).of_eq ?_
    rw [hsp', hload, writeReg_comm _ h7]
    rfl
  | call hq hsp =>
    obtain ⟨h7, ha⟩ := Bool.or_eq_false_iff.mp hr
    have h7 := of_decide_eq_false h7
    refine (Completes.call hq ((sp_writeReg_other s h7 v).symm ▸ hsp)).of_eq ?_
    rw [readReg_decremented_unread s h7 (register_ne hq (of_decide_eq_false ha)), pushed_writeReg s h7]
    rfl
  | ret hsp =>
    have h7 := of_decide_eq_false hr
    have hsp' := sp_writeReg_other s h7 v
    refine (Completes.ret (hsp'.symm ▸ hsp)).of_eq ?_
    rw [hsp', writeReg_comm s h7]
    rfl

/-- The old value of a register that the instruction writes without reading it (`x[a]` of LDI and POP) is lost. -/
theorem Completes.writeReg_unread_written (h : Completes s i t) {r : Fin 8} (hr : readsRegister r i = false)
    (hw : writesRegister r i = true) (v : Byte) : Completes (s.writeReg r v) i t := by
  cases h with
  | hlt | prn => cases hw
  | ldi hq =>
    cases register_unique hq (of_decide_eq_true hw)
    exact (Completes.ldi hq).of_eq (by rw [writeReg_writeReg_same])
  | add | mul | push | call => cases (Bool.or_eq_false_iff.mp hr).1.symm.trans hw
  | ret => cases hr.symm.trans hw
  | pop hq hsp =>
    have h7 := of_decide_eq_false hr
    cases register_unique hq (of_decide_eq_true ((Bool.or_eq_true_iff.mp hw).resolve_right (ne_true_of_eq_false hr)))
    have hload := popLoaded_writeReg_same s h7 v
    exact (Completes.pop hq (hload.symm ▸ hsp)).of_eq (by rw [hload])

/-- Completing at an address that a cycle can fetch at keeps the invariant. -/
theorem Completes.inv (h : Completes s i t) (hs : s.Inv) (hrun : s.run = .running) (hpc : s.pc ≤ 253) : t.Inv := by
  obtain ⟨hmem, -, -⟩ := hs
  refine ⟨h.mem_wf hmem, h.pc_le hpc, ?_⟩
  cases h with
  | hlt => exact hpc
  | _ => exact (congrArg (RunState.legalAt _) hrun).mpr trivial

end

/-! ## What a step of a running machine can do -/

section
variable {s : State}

theorem firstFault_of_decode (hpc : s.pc ≤ 253) {i : Instr} {rest : List Byte}
    (hd : decode (fetchedLatch s).bytes = .ok (i, rest)) : firstFault s = handlerFault i s := by
  rw [Latch.bytes, fetchedLatch] at hd
  rw [firstFault, if_neg (by omega), if_neg (by omega), if_neg (by omega), hd]

theorem firstFault_of_undefined (hpc : s.pc ≤ 253) (hn : lookupOpcode (s.mem.read s.pc) = none) :
    firstFault s = some (.decodeFault s.pc (s.mem.read s.pc)) := by
  rw [firstFault, if_neg (by omega), if_neg (by omega), if_neg (by omega), decode, hn]

theorem firstFault_of_operand (hpc : s.pc = 254 ∨ s.pc = 255) :
    firstFault s = some (.addressFault .operandFetch 256) := by
  obtain hpc | hpc := hpc <;> simp [firstFault, hpc]

theorem firstFault_of_fetch (hpc : 255 < s.pc) : firstFault s = some (.addressFault .fetch s.pc) := by
  rw [firstFault, if_pos hpc]

/-- A byte that no row of the table has is none of the nine opcodes. -/
theorem isOpcode_of_lookupOpcode {b : Byte} (h : lookupOpcode b = none) : isOpcode b = false := by
  refine Bool.eq_false_iff.mpr fun hb => ?_
  have hmem : b ∈ opcodeTable.map (·.opcode) := List.contains_iff_mem.mp hb
  obtain ⟨row, hrow, rfl⟩ := List.mem_map.mp hmem
  exact List.find?_eq_none.mp h row hrow (beq_self_eq_true _)

/-- The first fault condition carries the information of R200 for the PC it is raised at. -/
theorem firstFault_legalAt {f : FaultRecord} (hpc : s.pc ≤ 256) (h : firstFault s = some f) : f.legalAt s.pc := by
  obtain hlow | hhigh | htop : s.pc ≤ 253 ∨ (s.pc = 254 ∨ s.pc = 255) ∨ s.pc = 256 := by omega
  · obtain ⟨row, -, hd⟩ | ⟨hn, -⟩ := decode_three (s.mem.read s.pc) (s.mem.read (s.pc + 1)) (s.mem.read (s.pc + 2))
    · exact handlerFault_legalAt ((firstFault_of_decode hlow hd).symm.trans h) hlow
    · cases (firstFault_of_undefined hlow hn).symm.trans h
      exact ⟨rfl, hlow, isOpcode_of_lookupOpcode hn⟩
  · cases (firstFault_of_operand hhigh).symm.trans h
    exact ⟨rfl, hhigh⟩
  · cases (firstFault_of_fetch (by omega)).symm.trans h
    exact ⟨htop, htop⟩

/-- A machine that fetches HLT has no fault condition. -/
theorem firstFault_of_hlt (hpc : s.pc ≤ 253) (hop : s.mem.read s.pc = 0x01#8) : firstFault s = none := by
  have hd : decode (fetchedLatch s).bytes = .ok (.hlt, [s.mem.read (s.pc + 1), s.mem.read (s.pc + 2)]) := by
    rw [Latch.bytes, fetchedLatch, hop, decode_hlt]
  exact firstFault_of_decode hpc hd

/-- Everything a step of a running machine can do: complete the fetched instruction where no condition of R208 holds, or enter the fault of
the first one that does. -/
theorem step_cases (hrun : s.run = .running) :
    (firstFault s = none ∧ s.pc ≤ 253 ∧ ∃ i t, opcodeOf i = s.mem.read s.pc ∧
        operandsOf i <+: [s.mem.read (s.pc + 1), s.mem.read (s.pc + 2)] ∧
        Completes { s with latch := fetchedLatch s } i t ∧ step s = .next t) ∨
      ∃ f l, firstFault s = some f ∧ step s = .next (raise f { s with latch := l }) := by
  obtain ⟨hpc, i, rest, hd, he⟩ | ⟨hpc, hn, he⟩ | ⟨hpc, l, he⟩ | ⟨hpc, he⟩ := step_running_cases hrun
  · have hf := (firstFault_of_decode hpc hd).trans (handlerFault_congr i rfl rfl)
    obtain ⟨t, hnone, hc, ht⟩ | ⟨f, hsome, ht⟩ := exec_cases i { s with latch := fetchedLatch s }
    · exact .inl ⟨hf.trans hnone, hpc, i, t, opcodeOf_decode_three hd, operandsOf_decode_three hd, hc, he.trans ht⟩
    · exact .inr ⟨f, _, hf.trans hsome, he.trans ht⟩
  · exact .inr ⟨_, _, firstFault_of_undefined hpc hn, he⟩
  · exact .inr ⟨_, l, firstFault_of_operand hpc, he⟩
  · exact .inr ⟨_, s.latch, firstFault_of_fetch hpc, he⟩

theorem step_next_cases {t : State} (hrun : s.run = .running) (h : step s = .next t) :
    (firstFault s = none ∧ s.pc ≤ 253 ∧ ∃ i, opcodeOf i = s.mem.read s.pc ∧
        operandsOf i <+: [s.mem.read (s.pc + 1), s.mem.read (s.pc + 2)] ∧
        Completes { s with latch := fetchedLatch s } i t) ∨
      ∃ f l, firstFault s = some f ∧ t = raise f { s with latch := l } := by
  obtain ⟨hf, hpc, i, u, hop, hargs, hc, he⟩ | ⟨f, l, hf, he⟩ := step_cases hrun <;> cases he.symm.trans h
  · exact .inl ⟨hf, hpc, i, hop, hargs, hc⟩
  · exact .inr ⟨f, l, hf, rfl⟩

theorem step_answers (s : State) : ∃ t, step s = .next t := by
  by_cases hrun : s.run = .running
  · obtain ⟨-, -, i, t, -, -, -, he⟩ | ⟨f, l, -, he⟩ := step_cases hrun
    · exact ⟨t, he⟩
    · exact ⟨_, he⟩
  · exact ⟨s, step_stopped hrun⟩

theorem fetch_of_pc_le (hpc : s.pc ≤ 253) : fetch s = .ok { s with latch := fetchedLatch s } := by
  obtain ⟨-, hf⟩ | ⟨h, -⟩ | ⟨h, -⟩ | ⟨h, -⟩ := fetch_cases s
  · exact hf
  all_goals omega

/-- Where the fetch succeeds it fills the whole latch, so a step does not depend on what the latch held. -/
theorem step_latch_of_fetch (hrun : s.run = .running) (hpc : s.pc ≤ 253) (l : Latch) :
    step { s with latch := l } = step s := by
  rw [step_running hrun, step_running (s := { s with latch := l }) hrun, cycle, cycle, fetch_of_pc_le hpc,
    fetch_of_pc_le (s := { s with latch := l }) hpc]
  rfl

end

/-! ## The obligations -/

/-- Settles O17: a fault keeps memory and the PC and its record is one of R200; a completed instruction stores inside memory and
moves the PC by at most 3, or to a byte. -/
theorem stepKeepsInvariant : Obligations.StepKeepsInvariant := by
  intro s t hs h
  by_cases hrun : s.run = .running
  · obtain ⟨-, hpc, i, -, -, hc⟩ | ⟨f, l, hf, rfl⟩ := step_next_cases hrun h
    · exact hc.inv hs hrun hpc
    · obtain ⟨hmem, hpc, -⟩ := hs
      exact ⟨hmem, hpc, firstFault_legalAt hpc hf⟩
  · cases (step_stopped hrun).symm.trans h
    exact hs

/-- Settles O12: completing halts only for HLT, whose opcode byte is 0x01, and a fetched HLT has no fault condition. -/
theorem onlyHltHalts : Obligations.OnlyHltHalts := by
  intro s t hrun h
  obtain ⟨-, hpc, i, hop, -, hc⟩ | ⟨f, l, hf, rfl⟩ := step_next_cases hrun h
  · rw [hc.halted_iff hrun, ← opcodeOf_eq_hlt_iff, hop]
    exact (and_iff_right hpc).symm
  · refine iff_of_false nofun fun ⟨hpc, hop⟩ => ?_
    cases (firstFault_of_hlt hpc hop).symm.trans hf

/-- Settles O13: only CALL and RET set the PC themselves, and a step that stops has completed HLT or entered a fault. -/
theorem pcChangesInExactlyThreeWays : Obligations.PcChangesInExactlyThreeWays := by
  intro s t hrun h
  obtain ⟨-, -, i, hop, hargs, hc⟩ | ⟨f, l, -, rfl⟩ := step_next_cases hrun h
  · refine ⟨fun hr hcall hret => ?_, fun _ hcall => ?_, fun _ hret => ?_, fun hr => ?_⟩
    · rw [← hop] at hcall hret ⊢
      exact hc.pc_advance ((hc.running_iff hrun).mp hr) (fun a e => hcall (opcodeOf_eq_call_iff.mpr ⟨a, e⟩))
        (fun e => hret (opcodeOf_eq_ret_iff.mpr e))
    · obtain ⟨a, rfl⟩ := opcodeOf_eq_call_iff.mp (hop.trans hcall)
      obtain ⟨rfl, -⟩ := List.cons_prefix_cons.mp hargs
      cases hc with | call hr => exact ⟨_, hr, rfl⟩
    · cases opcodeOf_eq_ret_iff.mp (hop.trans hret)
      cases hc
      rfl
    · cases not_not.mp (mt (hc.running_iff hrun).mpr hr)
      cases hc
      rfl
  · exact ⟨nofun, nofun, nofun, fun _ => rfl⟩

/-- Settles O14: completing appends to the output only for PRN, and a fault keeps it. -/
theorem outputGrowsOnlyByPrn : Obligations.OutputGrowsOnlyByPrn := by
  intro s t hrun h
  obtain ⟨-, -, i, hop, hargs, hc⟩ | ⟨f, l, -, rfl⟩ := step_next_cases hrun h
  · obtain hout | ⟨a, r, rfl, hr, hout⟩ := hc.out
    · exact .inl hout
    · obtain ⟨rfl, -⟩ := List.cons_prefix_cons.mp hargs
      exact .inr ⟨hop.symm, r, hr, hout⟩
  · exact .inl rfl

/-- Settles O15: a fetch that succeeds fills the whole latch, and the fault of one that does not looks at no latch. -/
theorem latchIsNotVisibleBetweenCycles : Obligations.LatchIsNotVisibleBetweenCycles := by
  intro s l
  refine ⟨?_, fun hrun hpc => step_latch_of_fetch hrun hpc l⟩
  by_cases hrun : s.run = .running
  · by_cases hpc : s.pc ≤ 253
    · obtain ⟨t, ht⟩ := step_answers s
      exact ⟨t, t, ht, (step_latch_of_fetch hrun hpc l).trans ht, rfl⟩
    · obtain ⟨f, k, hf, he⟩ := (step_cases hrun).resolve_left fun ⟨_, h, _⟩ => hpc h
      obtain ⟨f', k', hf', he'⟩ := (step_cases (s := { s with latch := l }) hrun).resolve_left fun ⟨_, h, _⟩ => hpc h
      cases hf.symm.trans hf'
      exact ⟨_, _, he, he', rfl⟩
  · exact ⟨s, _, step_stopped hrun, step_stopped (s := { s with latch := l }) hrun, rfl⟩

/-- Settles O34: a fault keeps every register, and completing those the table does not name. -/
theorem onlyTableRegistersAreWritten : Obligations.OnlyTableRegistersAreWritten := by
  intro i s t r h hw
  obtain ⟨-, hc⟩ | ⟨f, -, rfl⟩ := exec_next_cases h
  · exact hc.readReg hw
  · rfl

/-- Settles O35: the fault condition does not read the register, and completing carries it along or loses its old value. -/
theorem onlyTableRegistersAreRead : Obligations.OnlyTableRegistersAreRead := by
  intro i s r v hr
  have hcond := handlerFault_writeReg (s := s) hr v
  obtain ⟨t, hf, hc, he⟩ | ⟨f, hf, he⟩ := exec_cases i s
  · cases hw : writesRegister r i with
    | true =>
      have he' := exec_of_completes (hcond.trans hf) (hc.writeReg_unread_written hr hw v)
      exact ⟨⟨t, t, he, he', rfl⟩, fun _ _ => he'.trans he.symm⟩
    | false =>
      have he' := exec_of_completes (hcond.trans hf) (hc.writeReg_unread_unwritten hr hw v)
      exact ⟨⟨t, _, he, he', writeReg_writeReg_same t r v _⟩, nofun⟩
  · exact ⟨⟨_, _, he, exec_of_handlerFault (hcond.trans hf), writeReg_writeReg_same (raise f s) r v _⟩,
      fun _ hnone => by cases hf.symm.trans hnone⟩

/-- Settles O38, by the fields that completing and fault entry leave. -/
theorem onlyNamedInstructionsTouchOutputAndRun : Obligations.OnlyNamedInstructionsTouchOutputAndRun := by
  intro i s t h
  obtain ⟨-, hc⟩ | ⟨f, hf, rfl⟩ := exec_next_cases h
  · refine ⟨hc.latch, fun hprn => ?_, fun hhlt => .inl (hc.run.trans (if_neg hhlt))⟩
    obtain hout | ⟨a, r, rfl, -, -⟩ := hc.out
    · exact hout
    · exact absurd rfl (hprn a)
  · exact ⟨rfl, fun _ => rfl, fun _ => .inr ⟨f, hf, rfl⟩⟩

theorem resetWith_eq_writeReg (v : Byte) : State.resetWith v = (State.resetWith 0#8).writeReg 7 v := rfl

/-- Settles O18: memory lists no cell, and register 7 alone differs from the machine whose `SP_RESET` is 0. -/
theorem resetStateIsAsSpecified : Obligations.ResetStateIsAsSpecified := by
  have hzero : ∀ r : Fin 8, (State.resetWith 0#8).readReg r = 0#8 := by decide
  refine ⟨fun v => ⟨fun _ => rfl, fun r hr => ?_, rfl, rfl, rfl, rfl⟩, rfl⟩
  rw [resetWith_eq_writeReg, readReg_writeReg_other _ _ _ _ hr, hzero]

/-- Settles O19: the empty memory is canonical, the PC is 0 and the machine runs. -/
theorem resetMeetsInvariant : Obligations.ResetMeetsInvariant := by
  have hinv (v : Byte) : (State.resetWith v).Inv := ⟨Memory.wf_nil, Nat.zero_le _, trivial⟩
  exact ⟨hinv, hinv _⟩

end Sys2Proof.Machine
end

section
/-!
PROOFS. The statements of spec/20_memory.md: the forms that store nothing keep memory (R40), the canonical form is determined by what it reads
as (log entry 16), and fetch coherence (R51, D15).
-/
namespace Sys2Proof

/-! ## Decoding the storing instructions -/

theorem decode_push (a b : Byte) : decode [0x45#8, a, b] = .ok (.push a, [b]) := rfl

theorem decode_call (a b : Byte) : decode [0x50#8, a, b] = .ok (.call a, [b]) := rfl

end Sys2Proof

namespace Sys2Proof.Machine

/-! ## The memory frame -/

theorem Completes.mem_of_not_storing {i : Instr} {s t : State} (h : Completes s i t) (hpush : ∀ a, i ≠ .push a)
    (hcall : ∀ a, i ≠ .call a) : t.mem = s.mem := by
  cases h with
  | push => exact absurd rfl (hpush _)
  | call => exact absurd rfl (hcall _)
  | _ => rfl

/-- Settles O36: completing a form that stores nothing keeps memory, and so does fault entry. -/
theorem nonStoringInstructionsKeepMemory : Obligations.NonStoringInstructionsKeepMemory := by
  intro i s t hpush hcall h b
  obtain ⟨-, hc⟩ | ⟨f, -, rfl⟩ := exec_next_cases h
  · rw [hc.mem_of_not_storing hpush hcall]
  · rfl

/-! ## The canonical form -/

theorem Memory.read_head (c : Host.Cell) (m : Memory) : Memory.read (c :: m) c.1 = c.2 :=
  if_pos rfl

theorem Memory.read_tail (c : Host.Cell) (m : Memory) {a : Nat} (h : c.1 < a) : Memory.read (c :: m) a = m.read a :=
  if_neg (Nat.ne_of_lt h)

/-- The first cell of a canonical memory is seen by a read. -/
theorem Memory.read_head_ne_unlisted {lo : Nat} {c : Host.Cell} {m : Memory} (h : Memory.wfFrom lo (c :: m) = true) :
    Memory.read (c :: m) c.1 ≠ unlistedByte := by
  obtain ⟨⟨-, -, hv⟩, -⟩ := Memory.wfFrom_cons.mp h
  rwa [Memory.read_head]

/-- A canonical memory that reads like one whose first cell stands at `c.1` has its own first cell there or below: a memory that began
later would not list the address. -/
theorem Memory.head_le_of_reads_alike {lo lo' : Nat} {c d : Host.Cell} {m n : Memory}
    (hm : Memory.wfFrom lo (c :: m) = true) (hn : Memory.wfFrom lo' (d :: n) = true)
    (h : ∀ a, Memory.read (c :: m) a = Memory.read (d :: n) a) : d.1 ≤ c.1 := by
  refine Nat.le_of_not_lt fun hlt => Memory.read_head_ne_unlisted hm ((h c.1).trans ?_)
  obtain ⟨⟨-, hd⟩, htail⟩ := Memory.wfFrom_cons.mp hn
  exact Memory.read_below (Memory.wfFrom_cons.mpr ⟨⟨le_refl d.1, hd⟩, htail⟩) hlt

/-- Two memories whose cells rise from `lo` on and that read alike have the same cells: the same first cell, and up to its address neither tail
lists anything. -/
theorem Memory.eq_of_reads_alike {lo : Nat} {m n : Memory} (hm : Memory.wfFrom lo m = true)
    (hn : Memory.wfFrom lo n = true) (h : ∀ a, m.read a = n.read a) : m = n := by
  induction m generalizing lo n with
  | nil =>
    cases n with
    | nil => rfl
    | cons d n => exact absurd (h d.1).symm (Memory.read_head_ne_unlisted hn)
  | cons c m ih =>
    cases n with
    | nil => exact absurd (h c.1) (Memory.read_head_ne_unlisted hm)
    | cons d n =>
      have haddr : c.1 = d.1 := le_antisymm (Memory.head_le_of_reads_alike hn hm fun a => (h a).symm)
        (Memory.head_le_of_reads_alike hm hn h)
      have hvalue : c.2 = d.2 := by
        rw [← Memory.read_head c m, ← Memory.read_head d n, h, haddr]
      obtain rfl : c = d := Prod.ext haddr hvalue
      obtain ⟨-, hm'⟩ := Memory.wfFrom_cons.mp hm
      obtain ⟨-, hn'⟩ := Memory.wfFrom_cons.mp hn
      refine congrArg (c :: ·) (ih hm' hn' fun a => ?_)
      by_cases ha : a < c.1 + 1
      · rw [Memory.read_below hm' ha, Memory.read_below hn' ha]
      · have ha' : c.1 < a := Nat.not_lt.mp ha
        rw [← Memory.read_tail c m ha', ← Memory.read_tail c n ha', h]

/-- Settles O40, by induction on the cells. -/
theorem canonicalMemoriesReadingAlikeAreEqual : Obligations.CanonicalMemoriesReadingAlikeAreEqual :=
  fun _ _ hm hn h => Memory.eq_of_reads_alike hm hn h

/-! ## Fetch coherence -/

/-- A byte that is none of the nine opcodes has no row in the table. -/
theorem lookupOpcode_of_isOpcode {b : Byte} (h : isOpcode b = false) : lookupOpcode b = none := by
  cases hl : lookupOpcode b with
  | none => rfl
  | some row =>
    obtain ⟨hmem, rfl⟩ := lookupOpcode_some hl
    have hop : isOpcode row.opcode = true := List.contains_iff_mem.mpr (List.mem_map_of_mem (f := (·.opcode)) hmem)
    cases hop.symm.trans h

section
variable {s : State}

/-- A step whose three bytes decode is the meaning of that instruction, with the bytes latched (R26, R80). -/
theorem step_of_decode (hrun : s.run = .running) (hpc : s.pc ≤ 253) {i : Instr} {rest : List Byte}
    (hd : decode (fetchedLatch s).bytes = .ok (i, rest)) : step s = exec i { s with latch := fetchedLatch s } := by
  rw [step_running hrun, cycle, fetch_of_pc_le hpc]
  simp only [decodeAndExecute, hd]

/-- A step that fetches an undefined byte enters `DecodeFault` with it (R201). -/
theorem step_of_undefined (hrun : s.run = .running) (hpc : s.pc ≤ 253) (hop : isOpcode (s.mem.read s.pc) = false) :
    step s = .next (raise (.decodeFault s.pc (s.mem.read s.pc)) { s with latch := fetchedLatch s }) := by
  have hn := lookupOpcode_of_isOpcode hop
  obtain ⟨-, i, rest, hd, -⟩ | ⟨-, -, he⟩ | ⟨h, -⟩ | ⟨h, -⟩ := step_running_cases hrun
  · rw [Latch.bytes, fetchedLatch, decode, hn] at hd
    cases hd
  · exact he
  all_goals omega

/-- The register operand of PUSH and CALL as they read it, after the decrement of the stack pointer (R140, R160). -/
theorem readReg_decremented (s : State) (r : Fin 8) :
    (s.writeReg Config.spIndex (s.sp - 1#8)).readReg r = if r = 7 then s.sp - 1#8 else s.readReg r :=
  readReg_writeReg s Config.spIndex r _

/-- What memory reads as after the store of PUSH and CALL. -/
theorem read_pushed (v : Byte) (s : State) (b : Nat) :
    (pushed v s).mem.read b = readAfterStore s.mem (s.sp.toNat - 1) v b :=
  Memory.read_write _ _ _ _

theorem advance_push_pc (a : Byte) (s : State) : (advance (.push a) s).pc = s.pc + 2 := by
  have hcount : operandCount (opcodeOf (.push a)) = 1 := by simp [opcodeOf, operandCount, bitsOf]
  rw [advance_pc, hcount]

theorem exec_push_of_register {a : Byte} {r : Fin 8} (hr : a.toNat = r.val) (hsp : s.sp.toNat ≠ 0) :
    exec (.push a) s = .next (advance (.push a) (pushed (if r = 7 then s.sp - 1#8 else s.readReg r) s)) := by
  rw [← readReg_decremented]
  refine exec_of_completes ?_ (.push hr hsp)
  rw [handlerFault_of_one_register s rfl (hr ▸ r.isLt), spRangeFault, if_neg hsp]

theorem exec_call_of_register {a : Byte} {r : Fin 8} (hr : a.toNat = r.val) (hsp : s.sp.toNat ≠ 0) :
    exec (.call a) s =
      .next (jumpTo (if r = 7 then s.sp - 1#8 else s.readReg r) (pushed (returnAddress s) s)) := by
  rw [← readReg_decremented]
  refine exec_of_completes ?_ (.call hr hsp)
  rw [handlerFault_of_one_register s rfl (hr ▸ r.isLt), spRangeFault, if_neg hsp]

section
variable (hrun : s.run = .running) (hpc : s.pc ≤ 253) {r : Fin 8} (hr : (s.mem.read (s.pc + 1)).toNat = r.val)
  (hsp : s.sp.toNat ≠ 0)
include hrun hpc hr hsp

/-- A PUSH that is fetched stores the register its latched operand names, whether or not the store falls on that operand. -/
theorem step_push (hop : s.mem.read s.pc = 0x45#8) :
    step s = .next (advance (.push (s.mem.read (s.pc + 1)))
      (pushed (if r = 7 then s.sp - 1#8 else s.readReg r) { s with latch := fetchedLatch s })) := by
  have hd : decode (fetchedLatch s).bytes = .ok (.push (s.mem.read (s.pc + 1)), [s.mem.read (s.pc + 2)]) := by
    rw [Latch.bytes, fetchedLatch, hop, decode_push]
  exact (step_of_decode hrun hpc hd).trans (exec_push_of_register hr hsp)

/-- A CALL that is fetched jumps to the register its latched operand names, whether or not the store falls on that operand. -/
theorem step_call (hop : s.mem.read s.pc = 0x50#8) :
    step s = .next (jumpTo (if r = 7 then s.sp - 1#8 else s.readReg r)
      (pushed (returnAddress s) { s with latch := fetchedLatch s })) := by
  have hd : decode (fetchedLatch s).bytes = .ok (.call (s.mem.read (s.pc + 1)), [s.mem.read (s.pc + 2)]) := by
    rw [Latch.bytes, fetchedLatch, hop, decode_call]
  exact (step_of_decode hrun hpc hd).trans (exec_call_of_register hr hsp)

end

end

/-- Settles O44: the step of a PUSH or CALL reads its own bytes from the latch, and the next step reads the memory it left. -/
theorem storeIsSeenByTheNextFetchOnly : Obligations.StoreIsSeenByTheNextFetchOnly := by
  intro s r stored target hrun hpc hr hsp hi
  obtain ⟨t, hstep, hrun', rfl, hread⟩ : ∃ t, step s = .next t ∧ t.run = .running ∧ t.pc = target ∧
      ∀ b, t.mem.read b = readAfterStore s.mem (s.sp.toNat - 1) stored b := by
    obtain ⟨hop, rfl, rfl⟩ | ⟨hop, rfl, rfl⟩ := hi
    · exact ⟨_, step_push hrun hpc hr hsp hop, hrun, advance_push_pc _ _, read_pushed _ _⟩
    · exact ⟨_, step_call hrun hpc hr hsp hop, hrun, rfl, read_pushed _ _⟩
  simp only [← hread]
  exact ⟨t, hstep, hrun', rfl, fun _ => rfl, fun hpc' => ⟨fun i rest hd => step_of_decode hrun' hpc' hd,
    fun hop => ⟨fetchedLatch t, step_of_undefined hrun' hpc' hop⟩⟩⟩

end Sys2Proof.Machine
end

section
/-!
PROOFS. The statements of spec/30_encoding.md: the decoder and the encoder agree (R60 to R67), the assembler's texts assemble to the
encoding (R85), and a step runs what the decoder reads while the machine is RUNNING, and nothing after (R80, R83).
-/
namespace Sys2Proof

/-! ## The row of an instruction -/

theorem encodedLength (i : Instr) : Laws.EncodedLength.Statement i := by
  cases i with
  | hlt => exact Laws.EncodedLength.hlt
  | ldi a imm => exact Laws.EncodedLength.ldi a imm
  | prn a => exact Laws.EncodedLength.prn a
  | add a b => exact Laws.EncodedLength.add a b
  | mul a b => exact Laws.EncodedLength.mul a b
  | push a => exact Laws.EncodedLength.push a
  | pop a => exact Laws.EncodedLength.pop a
  | call a => exact Laws.EncodedLength.call a
  | ret => exact Laws.EncodedLength.ret

theorem lookupOpcode_opcodeOf_isSome (i : Instr) : (lookupOpcode (opcodeOf i)).isSome = true := by
  obtain ⟨-, -, h⟩ := encodedLength i
  exact h

/-- As many operand bytes as the top two bits of the opcode byte say (R62). -/
theorem length_operandsOf (i : Instr) : (operandsOf i).length = operandCount (opcodeOf i) := by
  obtain ⟨h, -, -⟩ := encodedLength i
  rw [encode, List.length_cons] at h
  omega

/-- The row of the opcode table an instruction is encoded by. -/
def rowOf (i : Instr) : OpcodeRow := (lookupOpcode (opcodeOf i)).get (lookupOpcode_opcodeOf_isSome i)

theorem lookupOpcode_opcodeOf (i : Instr) : lookupOpcode (opcodeOf i) = some (rowOf i) := (Option.some_get _).symm

theorem rowOf_mem (i : Instr) : rowOf i ∈ opcodeTable := (lookupOpcode_some (lookupOpcode_opcodeOf i)).1

theorem rowOf_kinds_length (i : Instr) : (rowOf i).kinds.length = (operandsOf i).length := by
  rw [length_operandsOf, opcodeTable_counts _ (rowOf_mem i), (lookupOpcode_some (lookupOpcode_opcodeOf i)).2]

/-- The row of an instruction builds it from its operand bytes, whatever follows them. -/
theorem rowOf_build (i : Instr) (rest : List Byte) :
    (rowOf i).build ((operandsOf i ++ rest).getD 0 0#8) ((operandsOf i ++ rest).getD 1 0#8) = i := by
  cases i <;> rfl

/-! ## Decode and encode -/

theorem decode_encode_append (i : Instr) (rest : List Byte) : decode (encode i ++ rest) = .ok (i, rest) := by
  have henough : ¬ (operandsOf i ++ rest).length < operandCount (opcodeOf i) := by
    rw [List.length_append, length_operandsOf]
    omega
  simp only [encode, List.cons_append, decode, lookupOpcode_opcodeOf, if_neg henough, rowOf_build]
  rw [← length_operandsOf, List.drop_left]

/-- The first bytes of a sequence are the first of the two candidates the decoder offers a row. -/
theorem take_candidates {n : Nat} (hn : n ≤ 2) {bytes : List Byte} (hlen : n ≤ bytes.length) :
    [bytes.getD 0 0#8, bytes.getD 1 0#8].take n = bytes.take n := by
  match n, bytes, hn, hlen with
  | 0, _, _, _ => rfl
  | 1, _ :: _, _, _ => rfl
  | 2, _ :: _ :: _, _, _ => rfl

/-- The operands a row builds an instruction with are as many bytes as its opcode counts (R62). -/
theorem operandsOf_build_getD {row : OpcodeRow} (h : row ∈ opcodeTable) {bytes : List Byte}
    (hlen : operandCount row.opcode ≤ bytes.length) :
    operandsOf (row.build (bytes.getD 0 0#8) (bytes.getD 1 0#8)) = bytes.take (operandCount row.opcode) := by
  have hop := opcodeOf_build h (bytes.getD 0 0#8) (bytes.getD 1 0#8)
  rw [List.prefix_iff_eq_take.mp (operandsOf_build h _ _), length_operandsOf, hop]
  exact take_candidates (hop ▸ operandCount_opcodeOf_le _) hlen

/-- Bytes that decode begin with the encoding of what they decode to. -/
theorem eq_encode_append_of_decode {bytes rest : List Byte} {i : Instr} (h : decode bytes = .ok (i, rest)) :
    bytes = encode i ++ rest := by
  cases bytes with
  | nil => cases h
  | cons ir bytes =>
    cases hrow : lookupOpcode ir with
    | none => simp [decode, hrow] at h
    | some row =>
      obtain ⟨hmem, rfl⟩ := lookupOpcode_some hrow
      by_cases hlen : bytes.length < operandCount row.opcode
      · simp [decode, hrow, hlen] at h
      · simp only [decode, hrow, if_neg hlen] at h
        cases h
        rw [encode, opcodeOf_build hmem, operandsOf_build_getD hmem (Nat.not_lt.mp hlen), List.cons_append,
          List.take_append_drop]

/-- Settles O1: an instruction's row builds it from its encoding, and the operands a row builds with are the bytes taken. -/
theorem decodeAcceptsExactlyEncodings : Obligations.DecodeAcceptsExactlyEncodings := by
  intro bytes rest i
  exact ⟨eq_encode_append_of_decode, fun h => h ▸ decode_encode_append i rest⟩

/-- Settles O2: the bytes without a row are those outside the nine, and a row decodes with two operand bytes (R66, R81). -/
theorem exactlyNineOpcodeBytesDecode : Obligations.ExactlyNineOpcodeBytesDecode := by
  refine fun ir => ⟨fun hop rest => ?_, fun hop a b => ?_⟩
  · rw [decode, Machine.lookupOpcode_of_isOpcode hop]
  · obtain ⟨row, -, hd⟩ | ⟨hn, -⟩ := decode_three ir a b
    · exact ⟨_, _, hd, opcodeOf_decode_three hd⟩
    · cases (Machine.isOpcode_of_lookupOpcode hn).symm.trans hop

/-- Settles O3, by running the decoder on each word. -/
theorem tableWordsDecode : Obligations.TableWordsDecode :=
  ⟨rfl, rfl, rfl, rfl, rfl, rfl, rfl⟩

end Sys2Proof

namespace Sys2Proof.Machine

/-! ## The cycle -/

/-- Settles O5: the bytes a running machine fetches are those that decode. -/
theorem stepRunsDecodedInstruction : Obligations.StepRunsDecodedInstruction :=
  fun _ _ _ hrun hpc hd => step_of_decode hrun hpc hd

/-- Settles O8, by induction on the number of steps. -/
theorem stoppedMachineStaysAsItIs : Obligations.StoppedMachineStaysAsItIs := by
  intro s hrun k
  induction k with
  | zero => rfl
  | succ k ih =>
    have hstep : core.step s = .next s := step_stopped hrun
    simp only [Host.Core.run, hstep]
    exact ih

/-- Settles O16: a meaning completes or enters its fault, and so does a step. -/
theorem everyInstructionAndStepAnswersNext : Obligations.EveryInstructionAndStepAnswersNext :=
  ⟨exec_answers, step_answers⟩

/-! ## The words of the assembler's texts -/

/-- A word of an assembler text: one or more characters, and none of them a space, a comma or an opening bracket. -/
structure IsWord (cs : List Char) : Prop where
  ne_nil : cs ≠ []
  space : ' ' ∉ cs
  comma : ',' ∉ cs
  bracket : '[' ∉ cs

theorem isWord_name {row : OpcodeRow} (h : row ∈ opcodeTable) : IsWord row.name := by
  constructor <;> revert row <;> simp [opcodeTable]

/-- The character of the last decimal digit of a number. -/
def digitChar (k : Nat) : Char := Char.ofNat (48 + k % 10)

theorem toNat_digitChar (k : Nat) : (digitChar k).toNat = 48 + k % 10 := by
  rw [digitChar, Char.toNat_ofNat, if_pos (.inl (by omega))]

theorem digitChar_ne {c : Char} (h : c.toNat < 48 ∨ 57 < c.toNat) (k : Nat) : c ≠ digitChar k := by
  rintro rfl
  rw [toNat_digitChar] at h
  omega

/-- The decimal digits of a byte, by how many there are. -/
theorem decimalDigits_eq (b : Byte) :
    decimalDigits b =
      if b.toNat < 10 then [digitChar b.toNat]
      else if b.toNat < 100 then [digitChar (b.toNat / 10), digitChar b.toNat]
      else [digitChar (b.toNat / 100), digitChar (b.toNat / 10), digitChar b.toNat] := rfl

theorem decimalDigits_ne_nil (b : Byte) : decimalDigits b ≠ [] := by
  rw [decimalDigits_eq]
  split_ifs <;> simp

theorem not_mem_decimalDigits {c : Char} (h : c.toNat < 48 ∨ 57 < c.toNat) (b : Byte) : c ∉ decimalDigits b := by
  rw [decimalDigits_eq]
  split_ifs <;> simp [digitChar_ne h]

theorem isWord_decimalDigits (b : Byte) : IsWord (decimalDigits b) where
  ne_nil := decimalDigits_ne_nil b
  space := not_mem_decimalDigits (by decide) b
  comma := not_mem_decimalDigits (by decide) b
  bracket := not_mem_decimalDigits (by decide) b

theorem isWord_operandText (k : OperandKind) (b : Byte) : IsWord (operandText k b) := by
  have hd := isWord_decimalDigits b
  cases k with
  | imm => exact hd
  | reg =>
    exact ⟨List.cons_ne_nil _ _, by simp [operandText, hd.space], by simp [operandText, hd.comma],
      by simp [operandText, hd.bracket]⟩

theorem isWord_operandTexts (ks : List OperandKind) (bs : List Byte) :
    ∀ w ∈ List.zipWith operandText ks bs, IsWord w := by
  rw [← List.map_uncurry_zip_eq_zipWith]
  exact List.forall_mem_map.mpr fun p _ => isWord_operandText p.1 p.2

/-! ## Reading a number and a register -/

theorem digitValue_digitChar {base k : Nat} (h : k % 10 < base) : digitValue base (digitChar k) = some (k % 10) := by
  have hlow : 48 ≤ 48 + k % 10 ∧ 48 + k % 10 ≤ 57 := by omega
  simp only [digitValue, toNat_digitChar, if_pos hlow, Nat.add_sub_cancel_left, if_pos h]

theorem digitsFrom_digitChar {acc k : Nat} (h : acc * 10 + k % 10 ≤ 255) (cs : List Char) :
    digitsFrom 10 acc (digitChar k :: cs) = digitsFrom 10 (acc * 10 + k % 10) cs := by
  simp only [digitsFrom, digitValue_digitChar (show k % 10 < 10 by omega), if_pos h]

theorem digitsFrom_decimalDigits (b : Byte) : digitsFrom 10 0 (decimalDigits b) = some b.toNat := by
  have hb : b.toNat ≤ 255 := Nat.le_of_lt_succ b.isLt
  rw [decimalDigits_eq]
  split_ifs with h10 h100
  · rw [digitsFrom_digitChar (by omega), digitsFrom, Option.some_inj]
    omega
  · rw [digitsFrom_digitChar (by omega), digitsFrom_digitChar (by omega), digitsFrom, Option.some_inj]
    omega
  · rw [digitsFrom_digitChar (by omega), digitsFrom_digitChar (by omega), digitsFrom_digitChar (by omega), digitsFrom,
      Option.some_inj]
    omega

theorem digits_decimalDigits (b : Byte) : digits 10 (decimalDigits b) = some b := by
  rw [digits.eq_2 _ _ (decimalDigits_ne_nil b), digitsFrom_decimalDigits, Option.map_some, BitVec.ofNat_toNat,
    BitVec.setWidth_eq]

/-- A number without the x and the b of the other two radixes is read in decimal. -/
theorem parseNumber_of_no_letter {cs : List Char} (hx : 'x' ∉ cs) (hb : 'b' ∉ cs) : parseNumber cs = digits 10 cs := by
  unfold parseNumber
  split
  · simp at hx
  · simp at hb
  · rfl

theorem parseNumber_decimalDigits (b : Byte) : parseNumber (decimalDigits b) = some b := by
  rw [parseNumber_of_no_letter (not_mem_decimalDigits (by decide) b) (not_mem_decimalDigits (by decide) b),
    digits_decimalDigits]

theorem parseRegister_operandText {b : Byte} (h : b.toNat < 8) : parseRegister (operandText .reg b) = some b := by
  have hmod : b.toNat % 10 = b.toNat := by omega
  rw [operandText, decimalDigits_eq, if_pos (show b.toNat < 10 by omega), parseRegister,
    digitValue_digitChar (by omega), hmod, Option.map_some, BitVec.ofNat_toNat, BitVec.setWidth_eq]

/-! ## Spaces -/

theorem dropSpaces_eq_self {cs : List Char} (h : cs.head? ≠ some ' ') : cs.dropWhile (· == ' ') = cs := by
  cases cs with
  | nil => rfl
  | cons c cs => exact List.dropWhile_cons_of_neg (by simpa using h)

/-- Text that neither begins nor ends with a space has none to trim. -/
theorem trimSpaces_eq_self {cs : List Char} (hhead : cs.head? ≠ some ' ') (hlast : cs.getLast? ≠ some ' ') :
    trimSpaces cs = cs := by
  rw [trimSpaces, dropSpaces_eq_self hhead, dropSpaces_eq_self (by rwa [List.head?_reverse]), List.reverse_reverse]

theorem trimSpaces_of_no_space {cs : List Char} (h : ' ' ∉ cs) : trimSpaces cs = cs :=
  trimSpaces_eq_self (fun e => h (List.mem_of_head? e)) fun e => h (List.mem_of_getLast? e)

theorem trimSpaces_space_cons (cs : List Char) : trimSpaces (' ' :: cs) = trimSpaces cs := by
  simp [trimSpaces]

/-- A space between a word and the text after it is not trimmed. -/
theorem trimSpaces_name_space {p q : List Char} (hp : IsWord p) (hq : q ≠ []) (hq' : ' ' ∉ q) :
    trimSpaces (p ++ ' ' :: q) = p ++ ' ' :: q := by
  refine trimSpaces_eq_self (fun h => hp.space ?_) fun h => hq' ?_
  · rw [List.head?_append_of_ne_nil _ hp.ne_nil] at h
    exact List.mem_of_head? h
  · rw [List.getLast?_append_of_ne_nil _ (List.cons_ne_nil _ _), List.getLast?_cons_of_ne_nil hq] at h
    exact List.mem_of_getLast? h

/-! ## Commas -/

theorem splitCommas_eq_splitOn (cs : List Char) : splitCommas cs = cs.splitOn ',' := by
  induction cs with
  | nil => rfl
  | cons c cs ih =>
    rw [splitCommas, ih, List.splitOn_cons_eq_if_modifyHead]
    cases hw : cs.splitOn ',' with
    | nil => exact absurd hw (List.splitOn_ne_nil _ _)
    | cons w ws => simp

/-- Words joined by commas are cut into the same words again. -/
theorem splitCommas_intercalate {ws : List (List Char)} (hne : ws ≠ []) (h : ∀ w ∈ ws, IsWord w) :
    splitCommas ([','].intercalate ws) = ws := by
  rw [splitCommas_eq_splitOn, List.splitOn_intercalate _ (fun w hw => (h w hw).comma) hne]

theorem not_mem_intercalate {c : Char} (hc : c ≠ ',') {ws : List (List Char)} (h : ∀ w ∈ ws, c ∉ w) :
    c ∉ [','].intercalate ws := by
  induction ws with
  | nil => simp
  | cons w ws ih =>
    obtain ⟨hw, hws⟩ := List.forall_mem_cons.mp h
    cases ws with
    | nil => simpa using hw
    | cons w' ws => simp [List.intercalate_cons_cons, hw, hc, ih hws]

theorem space_not_mem_intercalate {ws : List (List Char)} (h : ∀ w ∈ ws, IsWord w) : ' ' ∉ [','].intercalate ws :=
  not_mem_intercalate (by decide) fun w hw => (h w hw).space

theorem intercalate_ne_nil {ws : List (List Char)} (hne : ws ≠ []) (h : ∀ w ∈ ws, IsWord w) :
    [','].intercalate ws ≠ [] := by
  intro e
  have hsplit := splitCommas_intercalate hne h
  rw [e] at hsplit
  exact (h [] (by simp [← hsplit, splitCommas])).ne_nil rfl

/-! ## Operand lists -/

section
variable {ks : List OperandKind} {bs : List Byte}

/-- The operands of the plain form are its words joined by commas. -/
theorem operandsText_eq_intercalate (h : ks.length = bs.length) :
    operandsText ks bs = [','].intercalate (List.zipWith operandText ks bs) := by
  induction ks generalizing bs with
  | nil => cases bs <;> rfl
  | cons k ks ih =>
    match ks, bs, h with
    | [], [b], _ => simp [operandsText]
    | k' :: ks, b :: b' :: bs, h =>
      have htail := ih (bs := b' :: bs) (by simpa using h)
      simp [operandsText, htail]

/-- The values of the bracketed form, after a name, are words joined by commas. -/
theorem append_valuesText (name : List Char) (bs : List Byte) :
    name ++ valuesText bs = [','].intercalate (name :: bs.map decimalDigits) := by
  induction bs generalizing name with
  | nil => simp [valuesText]
  | cons b bs ih => simp [valuesText, ih (decimalDigits b), List.intercalate_cons_cons]

/-- Words that each read as their operand read as the operand list. -/
theorem parseOperands_zipWith {operand : OperandKind → List Char → Option Byte} {text : OperandKind → Byte → List Char}
    (hlen : ks.length = bs.length) (hread : ∀ p ∈ ks.zip bs, operand p.1 (trimSpaces (text p.1 p.2)) = some p.2) :
    parseOperands operand ks (List.zipWith text ks bs) = some bs := by
  induction ks generalizing bs with
  | nil =>
    cases bs with
    | nil => rfl
    | cons b bs => cases hlen
  | cons k ks ih =>
    cases bs with
    | nil => cases hlen
    | cons b bs =>
      obtain ⟨hb, hbs⟩ := List.forall_mem_cons.mp hread
      simp only [List.zipWith_cons_cons, parseOperands, hb, ih (Nat.succ.inj hlen) hbs]

end

/-! ## Reading a statement -/

theorem opcodeTable_find_name {row : OpcodeRow} (h : row ∈ opcodeTable) :
    (opcodeTable.find? fun r => r.name == row.name) = some row := by
  revert row
  simp [opcodeTable]

/-- The name of an instruction with words that read as its operands is the instruction. -/
theorem parseNamed_rowOf {operand : OperandKind → List Char → Option Byte} {i : Instr} {words : List (List Char)}
    (h : parseOperands operand (rowOf i).kinds words = some (operandsOf i)) :
    parseNamed operand (rowOf i).name words = some i := by
  have hbuild := rowOf_build i []
  rw [List.append_nil] at hbuild
  simp only [parseNamed, opcodeTable_find_name (rowOf_mem i), h, Option.map_some, hbuild]

/-- Every register operand of a well-formed instruction is 0..7 (R63). -/
theorem register_lt_of_wellFormed {i : Instr} (h : wellFormed i = true) :
    ∀ p ∈ (rowOf i).kinds.zip (operandsOf i), p.1 = .reg → p.2.toNat < 8 := by
  revert h
  cases i <;> simp [rowOf, lookupOpcode, opcodeTable, opcodeOf, operandsOf, wellFormed, isRegister]

/-- The words of the plain form read as the operands of a well-formed instruction. -/
theorem parseOperands_plain {i : Instr} (h : wellFormed i = true) :
    parseOperands plainOperand (rowOf i).kinds (List.zipWith operandText (rowOf i).kinds (operandsOf i)) =
      some (operandsOf i) := by
  refine parseOperands_zipWith (rowOf_kinds_length i) fun ⟨k, b⟩ hp => ?_
  rw [trimSpaces_of_no_space (isWord_operandText k b).space]
  cases k with
  | reg => exact parseRegister_operandText (register_lt_of_wellFormed h _ hp rfl)
  | imm => exact parseNumber_decimalDigits b

theorem zipWith_decimalDigits {ks : List OperandKind} {bs : List Byte} (h : ks.length = bs.length) :
    List.zipWith (fun _ b => decimalDigits b) ks bs = bs.map decimalDigits :=
  List.ext_getElem (by simp [h]) (by simp)

/-- The words of the bracketed form read as the operands of any instruction. -/
theorem parseOperands_bracket (i : Instr) :
    parseOperands bracketOperand (rowOf i).kinds ((operandsOf i).map decimalDigits) = some (operandsOf i) := by
  have hlen := rowOf_kinds_length i
  rw [← zipWith_decimalDigits hlen]
  refine parseOperands_zipWith hlen fun ⟨k, b⟩ hp => ?_
  rw [trimSpaces_of_no_space (isWord_decimalDigits b).space]
  cases k <;> exact parseNumber_decimalDigits b

/-- The plain form is cut where the mnemonic ends. -/
theorem parsePlain_append {name tail : List Char} (h : IsWord name) (htail : tail.head?.getD ' ' = ' ') :
    parsePlain (name ++ tail) = parseNamed plainOperand name (operandWords (trimSpaces tail)) := by
  have hname : ∀ c ∈ name, (c != ' ') = true := fun c hc => bne_iff_ne.mpr fun e => h.space (e ▸ hc)
  rw [parsePlain, List.takeWhile_append_of_pos hname, List.dropWhile_append_of_pos hname]
  cases tail with
  | nil => simp
  | cons c tail =>
    obtain rfl : c = ' ' := htail
    simp

theorem operandWords_intercalate {ws : List (List Char)} (hne : ws ≠ []) (hws : ∀ w ∈ ws, IsWord w) :
    operandWords ([','].intercalate ws) = ws := by
  rw [operandWords.eq_2 _ (intercalate_ne_nil hne hws), splitCommas_intercalate hne hws]

theorem parseBracketed_intercalate {name : List Char} (h : IsWord name) {ws : List (List Char)} (hws : ∀ w ∈ ws, IsWord w) :
    parseBracketed ([','].intercalate (name :: ws)) = parseNamed bracketOperand name ws := by
  rw [parseBracketed, splitCommas_intercalate (List.cons_ne_nil _ _) (List.forall_mem_cons.mpr ⟨h, hws⟩)]
  simp only [trimSpaces_of_no_space h.space]

/-- A statement that begins with a word is in the plain form. -/
theorem parseStatement_of_name {name cs : List Char} (h : IsWord name) (ht : trimSpaces (name ++ cs) = name ++ cs) :
    parseStatement (name ++ cs) = parsePlain (name ++ cs) := by
  unfold parseStatement
  rw [ht]
  split
  · next hb =>
    have hmem : '[' ∈ name := List.mem_of_head? (by rw [← List.head?_append_of_ne_nil _ h.ne_nil, hb, List.head?_cons])
    exact absurd hmem h.bracket
  · rfl

/-- A statement in brackets is in the bracketed form. -/
theorem parseStatement_brackets (inside : List Char) : parseStatement ('[' :: inside ++ [']']) = parseBracketed inside := by
  have ht : trimSpaces ('[' :: inside ++ [']']) = '[' :: inside ++ [']'] :=
    trimSpaces_eq_self (by simp) (by rw [List.getLast?_concat]; decide)
  unfold parseStatement
  rw [ht]
  simp

theorem parseStatement_name {name : List Char} (h : IsWord name) :
    parseStatement name = parseNamed plainOperand name [] := by
  have hparse := parseStatement_of_name (cs := []) h (trimSpaces_of_no_space (by simpa using h.space))
  rw [parsePlain_append h rfl, List.append_nil] at hparse
  exact hparse

theorem parseStatement_operands {name : List Char} (h : IsWord name) {ws : List (List Char)} (hne : ws ≠ [])
    (hws : ∀ w ∈ ws, IsWord w) :
    parseStatement (name ++ ' ' :: [','].intercalate ws) = parseNamed plainOperand name ws := by
  have hspace := space_not_mem_intercalate hws
  rw [parseStatement_of_name h (trimSpaces_name_space h (intercalate_ne_nil hne hws) hspace), parsePlain_append h rfl,
    trimSpaces_space_cons, trimSpaces_of_no_space hspace, operandWords_intercalate hne hws]

/-! ## Assembling -/

theorem instructionText_of_no_operands {i : Instr} (h : operandsOf i = []) : instructionText i = (rowOf i).name := by
  simp only [instructionText, lookupOpcode_opcodeOf, h]

theorem instructionText_of_operands {i : Instr} (h : operandsOf i ≠ []) :
    instructionText i =
      (rowOf i).name ++ ' ' :: [','].intercalate (List.zipWith operandText (rowOf i).kinds (operandsOf i)) := by
  rw [← operandsText_eq_intercalate (rowOf_kinds_length i)]
  simp only [instructionText, lookupOpcode_opcodeOf]

theorem bracketText_eq (i : Instr) :
    bracketText i = '[' :: [','].intercalate ((rowOf i).name :: (operandsOf i).map decimalDigits) ++ [']'] := by
  simp only [bracketText, lookupOpcode_opcodeOf, ← append_valuesText, List.cons_append]

theorem parseStatement_instructionText {i : Instr} (h : wellFormed i = true) :
    parseStatement (instructionText i) = some i := by
  have hname := isWord_name (rowOf_mem i)
  have hoperands := parseOperands_plain h
  by_cases hnil : operandsOf i = []
  · rw [instructionText_of_no_operands hnil, parseStatement_name hname]
    rw [hnil, List.zipWith_nil_right, ← hnil] at hoperands
    exact parseNamed_rowOf hoperands
  · have hne : List.zipWith operandText (rowOf i).kinds (operandsOf i) ≠ [] := by
      rw [Ne, List.zipWith_eq_nil_iff, ← List.length_eq_zero_iff, rowOf_kinds_length, List.length_eq_zero_iff, or_self]
      exact hnil
    rw [instructionText_of_operands hnil, parseStatement_operands hname hne (isWord_operandTexts _ _),
      parseNamed_rowOf hoperands]

theorem parseStatement_bracketText (i : Instr) : parseStatement (bracketText i) = some i := by
  have hwords : ∀ w ∈ (operandsOf i).map decimalDigits, IsWord w :=
    List.forall_mem_map.mpr fun b _ => isWord_decimalDigits b
  rw [bracketText_eq, parseStatement_brackets, parseBracketed_intercalate (isWord_name (rowOf_mem i)) hwords,
    parseNamed_rowOf (parseOperands_bracket i)]

/-- Settles O4: both texts are read as the instruction they are written from, and an instruction assembles to its encoding. -/
theorem assemblyTextAssemblesToEncoding : Obligations.AssemblyTextAssemblesToEncoding := by
  refine ⟨fun i h => ?_, fun i => ?_⟩
  · rw [assemble, parseStatement_instructionText h, Option.map_some]
  · rw [assemble, parseStatement_bracketText i, Option.map_some]

end Sys2Proof.Machine
end

section
/-!
PROOFS. The statements of spec/40_control_io.md: what HLT, LDI and PRN leave (R101 to R103).
-/
namespace Sys2Proof.Machine

/-! ## The PC advance of LDI and PRN -/

/-- The PC advance over an instruction of `n` operand bytes, as the state it leaves (R82). -/
theorem advance_of_operandCount {i : Instr} {n : Nat} (h : operandCount (opcodeOf i) = n) (s : State) :
    advance i s = { s with pc := s.pc + (n + 1) } := by
  rw [advance, h, Nat.add_assoc, Nat.add_comm 1]

theorem operandCount_ldi (a imm : Byte) : operandCount (opcodeOf (.ldi a imm)) = 2 := by
  simp [opcodeOf, operandCount, bitsOf]

theorem operandCount_prn (a : Byte) : operandCount (opcodeOf (.prn a)) = 1 := by
  simp [opcodeOf, operandCount, bitsOf]

/-! ## The meanings, by what the register operand names -/

/-- Every instruction checks its first register operand before anything else: a byte of 8..255 raises REG_INDEX (R202, R208). -/
theorem exec_of_first_operand {i : Instr} {a : Byte} {bs : List Byte} (s : State)
    (hi : registerOperands i = a :: bs) (ha : 8 ≤ a.toNat) :
    exec i s = .next (raise (.addressFault .regIndex a.toNat) s) :=
  exec_of_handlerFault (handlerFault_of_first_operand s hi ha)

theorem exec_ldi_of_register {a : Byte} {r : Fin 8} (imm : Byte) (s : State) (hr : a.toNat = r.val) :
    exec (.ldi a imm) s = .next (advance (.ldi a imm) (s.writeReg r imm)) :=
  exec_of_completes (handlerFault_of_one_register s rfl (hr ▸ r.isLt)) (.ldi hr)

theorem exec_prn_of_register {a : Byte} {r : Fin 8} (s : State) (hr : a.toNat = r.val) :
    exec (.prn a) s = .next (advance (.prn a) (emit (s.readReg r) s)) :=
  exec_of_completes (handlerFault_of_one_register s rfl (hr ▸ r.isLt)) (.prn hr)

/-! ## The obligations -/

/-- Settles O25: a named register takes the immediate, and the PC passes two operand bytes; any other operand raises. -/
theorem ldiLoadsImmediate : Obligations.LdiLoadsImmediate := by
  refine fun a imm s => ⟨fun r hr => ?_, fun ha => exec_of_first_operand s rfl ha⟩
  rw [exec_ldi_of_register imm s hr, advance_of_operandCount (operandCount_ldi a imm)]
  rfl

/-- Settles O26: the value of a named register is emitted, and the PC passes one operand byte; any other operand raises. -/
theorem prnAppendsRegisterValue : Obligations.PrnAppendsRegisterValue := by
  refine fun a s => ⟨fun r hr => ?_, fun ha => exec_of_first_operand s rfl ha⟩
  rw [exec_prn_of_register s hr, advance_of_operandCount (operandCount_prn a)]
  rfl

/-- Settles O24: HLT is the halt operation alone, with no PC advance after it. -/
theorem hltHaltsAndChangesNothingElse : Obligations.HltHaltsAndChangesNothingElse := exec_hlt

end Sys2Proof.Machine
end

section
/-!
PROOFS. The statements of spec/41_alu.md: what ADD and MUL leave (R120, R121), and the laws of their results (R122, R123).
-/
namespace Sys2Proof.Machine

/-! ## The results are the sum and the product of bytes -/

theorem narrow_eq_ofNat (n : Nat) : narrow n = BitVec.ofNat 8 n :=
  BitVec.eq_of_toNat_eq (by simp [narrow])

theorem addResult_eq_add (x y : Byte) : addResult x y = x + y := by
  rw [addResult, narrow_eq_ofNat, BitVec.ofNat_add, BitVec.ofNat_toNat, BitVec.ofNat_toNat, BitVec.setWidth_eq,
    BitVec.setWidth_eq]

theorem mulResult_eq_mul (x y : Byte) : mulResult x y = x * y := by
  rw [mulResult, narrow_eq_ofNat, BitVec.ofNat_mul, BitVec.ofNat_toNat, BitVec.ofNat_toNat, BitVec.setWidth_eq,
    BitVec.setWidth_eq]

/-- Settles O45: the results are the operations of the ring of bytes, whose laws these are. -/
theorem arithmeticLawsModulo256 : Obligations.ArithmeticLawsModulo256 := by
  intro x y z
  simp only [addResult_eq_add, mulResult_eq_mul]
  exact ⟨BitVec.add_comm x y, BitVec.mul_comm x y, BitVec.add_assoc x y z, BitVec.mul_assoc x y z, BitVec.mul_add⟩

/-! ## The PC advance of ADD and MUL -/

theorem operandCount_add (a b : Byte) : operandCount (opcodeOf (.add a b)) = 2 := by
  simp [opcodeOf, operandCount, bitsOf]

theorem operandCount_mul (a b : Byte) : operandCount (opcodeOf (.mul a b)) = 2 := by
  simp [opcodeOf, operandCount, bitsOf]

/-! ## The meanings, by what the two register operands name -/

theorem handlerFault_of_two_registers {i : Instr} {a b : Byte} (s : State) (hi : registerOperands i = [a, b])
    (ha : a.toNat < 8) (hb : b.toNat < 8) : handlerFault i s = spRangeFault s i := by
  rw [handlerFault_of_two_operands s hi ha, if_neg (Nat.not_le.mpr hb)]

/-- A second register operand of 8..255 raises REG_INDEX where the first names a register (R202, R208). -/
theorem exec_of_second_operand {i : Instr} {a b : Byte} (s : State) (hi : registerOperands i = [a, b])
    (ha : a.toNat < 8) (hb : 8 ≤ b.toNat) : exec i s = .next (raise (.addressFault .regIndex b.toNat) s) :=
  exec_of_handlerFault (by rw [handlerFault_of_two_operands s hi ha, if_pos hb])

section
variable {a b : Byte} {r q : Fin 8}

theorem exec_add_of_registers (s : State) (hr : a.toNat = r.val) (hq : b.toNat = q.val) :
    exec (.add a b) s = .next (advance (.add a b) (s.writeReg r (addResult (s.readReg r) (s.readReg q)))) :=
  exec_of_completes (handlerFault_of_two_registers s rfl (hr ▸ r.isLt) (hq ▸ q.isLt)) (.add hr hq)

theorem exec_mul_of_registers (s : State) (hr : a.toNat = r.val) (hq : b.toNat = q.val) :
    exec (.mul a b) s = .next (advance (.mul a b) (s.writeReg r (mulResult (s.readReg r) (s.readReg q)))) :=
  exec_of_completes (handlerFault_of_two_registers s rfl (hr ▸ r.isLt) (hq ▸ q.isLt)) (.mul hr hq)

end

/-! ## The obligations -/

/-- Settles O27: with two named registers the first takes the sum, and the PC passes two operand bytes; otherwise the first
operand of 8..255 raises. -/
theorem addStoresSumModulo256 : Obligations.AddStoresSumModulo256 := by
  refine fun a b s => ⟨fun r q hr hq => ?_, fun ha => exec_of_first_operand s rfl ha,
    fun ha hb => exec_of_second_operand s rfl ha hb⟩
  rw [exec_add_of_registers s hr hq, advance_of_operandCount (operandCount_add a b)]
  rfl

/-- Settles O28: with two named registers the first takes the product, and the PC passes two operand bytes; otherwise the
first operand of 8..255 raises. -/
theorem mulStoresProductModulo256 : Obligations.MulStoresProductModulo256 := by
  refine fun a b s => ⟨fun r q hr hq => ?_, fun ha => exec_of_first_operand s rfl ha,
    fun ha hb => exec_of_second_operand s rfl ha hb⟩
  rw [exec_mul_of_registers s hr hq, advance_of_operandCount (operandCount_mul a b)]
  rfl

end Sys2Proof.Machine
end

section
/-!
PROOFS. The statements of spec/42_stack.md: what PUSH and POP leave (R140, R141), the memory frame of the storing forms (R140, R160),
and the laws of a push followed by a pop (R142, R143).
-/
namespace Sys2Proof.Machine

/-! ## Registers and the stack pointer -/

@[simp] theorem sp_advance (i : Instr) (s : State) : (advance i s).sp = s.sp := rfl

theorem writeReg_readReg_self (s : State) (r : Fin 8) : s.writeReg r (s.readReg r) = s := by
  simp [State.writeReg, State.readReg]

theorem sp_popLoaded_other (s : State) {r : Fin 8} (h : r ≠ 7) : (popLoaded r s).sp = s.sp :=
  sp_writeReg_other s h _

theorem sp_popLoaded_sp (s : State) : (popLoaded 7 s).sp = s.mem.read s.sp.toNat :=
  readReg_writeReg_same _ _ _

/-! ## The meanings, by what the register operand names -/

/-- The SP_RANGE condition of an instruction whose register operand is in range is its fault (R204, R208). -/
theorem exec_of_spRangeFault {i : Instr} {a : Byte} {s : State} {f : FaultRecord} (hi : registerOperands i = [a])
    (ha : a.toNat < 8) (h : spRangeFault s i = some f) : exec i s = .next (raise f s) :=
  exec_of_handlerFault ((handlerFault_of_one_register s hi ha).trans h)

theorem operandCount_push (a : Byte) : operandCount (opcodeOf (.push a)) = 1 := by
  simp [opcodeOf, operandCount, bitsOf]

theorem operandCount_pop (a : Byte) : operandCount (opcodeOf (.pop a)) = 1 := by
  simp [opcodeOf, operandCount, bitsOf]

section
variable {s : State} {a : Byte} {r : Fin 8} (hr : a.toNat = r.val)
include hr

/-- PUSH of a register other than 7 stores its value: the decrement is not seen in it (R140). -/
theorem exec_push_of_other (h7 : r ≠ 7) (hsp : s.sp.toNat ≠ 0) :
    exec (.push a) s = .next (advance (.push a) (pushed (s.readReg r) s)) := by
  rw [exec_push_of_register hr hsp, if_neg h7]

theorem exec_pop_of_register (hsp : (popLoaded r s).sp.toNat ≠ 255) :
    exec (.pop a) s =
      .next { (popLoaded r s).writeReg 7 ((popLoaded r s).sp + 1#8) with pc := s.pc + 2 } := by
  have hfault : handlerFault (.pop a) s = none := by
    rw [handlerFault_of_one_register s rfl (hr ▸ r.isLt), spRangeFault, popIncrementsFrom_eq s hr, if_neg hsp]
  rw [exec_of_completes hfault (.pop hr hsp), advance_of_operandCount (operandCount_pop a)]
  rfl

/-- POP of a register other than 7: the register and the stack pointer are written apart (R141). -/
theorem exec_pop_of_other (h7 : r ≠ 7) (hsp : s.sp.toNat ≠ 255) :
    exec (.pop a) s =
      .next { (s.writeReg r (s.mem.read s.sp.toNat)).writeReg 7 (s.sp + 1#8) with pc := s.pc + 2 } := by
  have hload := sp_popLoaded_other s h7
  rw [exec_pop_of_register hr (hload ▸ hsp), hload]
  rfl

end

/-- POP of register 7: the increment sees the popped byte (R141, D8). -/
theorem exec_pop_of_sp {s : State} {a : Byte} (ha : a.toNat = 7) (hv : (s.mem.read s.sp.toNat).toNat ≠ 255) :
    exec (.pop a) s = .next { s.writeReg 7 (s.mem.read s.sp.toNat + 1#8) with pc := s.pc + 2 } := by
  have hload := sp_popLoaded_sp s
  rw [exec_pop_of_register (r := 7) ha (hload ▸ hv), hload, popLoaded, writeReg_writeReg_same]

/-- Settles O29: a named register is stored one below the stack top, as it reads after the decrement; otherwise the operand raises
before the stack pointer does. -/
theorem pushStoresBelowStackTop : Obligations.PushStoresBelowStackTop := by
  refine fun a s => ⟨fun r hr hsp => ?_, fun ha => exec_of_first_operand s rfl ha,
    fun ha hsp => exec_of_spRangeFault rfl ha (if_pos hsp)⟩
  rw [exec_push_of_register hr hsp, advance_of_operandCount (operandCount_push a)]
  rfl

/-- Settles O30: the increment starts from the popped byte for register 7 and from the stack pointer for the others, and it is checked
after the register operand. -/
theorem popTakesStackTop : Obligations.PopTakesStackTop := by
  refine fun a s => ⟨fun r hr h7 hsp => exec_pop_of_other hr h7 hsp, fun ha hv => exec_pop_of_sp ha hv,
    fun ha => exec_of_first_operand s rfl ha, fun ha hsp => ?_, fun ha hv => ?_⟩
  · have hfrom : popIncrementsFrom a s = s.sp := if_neg ha.ne
    exact exec_of_spRangeFault rfl (by omega) (if_pos (hfrom ▸ hsp))
  · have hfrom : popIncrementsFrom a s = s.mem.read s.sp.toNat := if_pos ha
    exact exec_of_spRangeFault rfl (by omega) (if_pos (hfrom ▸ hv))

/-! ## The memory frame of the storing forms -/

/-- A decrement that succeeds moves the stack top one down. -/
theorem stackTop_of_decrementSp {s lowered : State} (h : decrementSp s = .ok lowered) :
    stackTop lowered = s.sp.toNat - 1 := by
  obtain ⟨hsp, hd⟩ | ⟨-, hd⟩ := decrementSp_cases s <;> cases hd.symm.trans h
  exact stackTop_decremented hsp

theorem sp_of_decrementSp_error {s : State} {f : FaultRecord} (h : decrementSp s = .error f) : s.sp.toNat = 0 := by
  obtain ⟨-, hd⟩ | ⟨hsp, -⟩ := decrementSp_cases s
  · cases hd.symm.trans h
  · exact hsp

/-- PUSH and CALL complete for a named register and a stack pointer other than 0, and store one byte. -/
theorem Completes.mem_of_storing {i : Instr} {a : Byte} {s t : State} (h : Completes s i t)
    (hi : i = .push a ∨ i = .call a) :
    a.toNat < 8 ∧ s.sp.toNat ≠ 0 ∧ ∃ v, t.mem = s.mem.write (s.sp.toNat - 1) v := by
  obtain rfl | rfl := hi
  · cases h with | @push _ r hr hsp => exact ⟨hr ▸ r.isLt, hsp, _, rfl⟩
  · cases h with | @call _ r hr hsp => exact ⟨hr ▸ r.isLt, hsp, _, rfl⟩

/-- Settles O37: completing stores one byte, at the new stack top, and fault entry stores none. -/
theorem storingInstructionsKeepOtherBytes : Obligations.StoringInstructionsKeepOtherBytes := by
  intro a s t h
  obtain ⟨i, hi, he⟩ : ∃ i, (i = .push a ∨ i = .call a) ∧ exec i s = .next t :=
    h.elim (fun h => ⟨_, .inl rfl, h⟩) (fun h => ⟨_, .inr rfl, h⟩)
  obtain ⟨-, hc⟩ | ⟨f, -, rfl⟩ := exec_next_cases he
  · obtain ⟨ha, hsp, v, hmem⟩ := hc.mem_of_storing hi
    refine ⟨fun lowered hd b hb => ?_, fun f hd => absurd (sp_of_decrementSp_error hd) hsp,
      fun ha' => absurd ha (Nat.not_lt.mpr ha')⟩
    rw [stackTop_of_decrementSp hd] at hb
    rw [hmem, Memory.read_write_other _ hb]
  · exact ⟨fun _ _ _ _ => rfl, fun _ _ _ => rfl, fun _ _ => rfl⟩

/-! ## A push followed by a pop -/

theorem writeReg_sp_self (s : State) : s.writeReg 7 s.sp = s := writeReg_readReg_self s 7

@[simp] theorem sp_pushed (v : Byte) (s : State) : (pushed v s).sp = s.sp - 1#8 :=
  readReg_writeReg_same s _ _

section
variable {s : State} {v : Byte} (hsp : s.sp.toNat ≠ 0)
include hsp

theorem toNat_sp_sub_one : (s.sp - 1#8).toNat = s.sp.toNat - 1 :=
  (congrArg BitVec.toNat (readReg_writeReg_same s _ _)).symm.trans (stackTop_decremented hsp)

/-- A lowered stack pointer is not 255, so it can be raised again. -/
theorem sp_sub_one_ne : (s.sp - 1#8).toNat ≠ 255 := by
  have hlt := s.sp.isLt
  rw [toNat_sp_sub_one hsp]
  omega

/-- The pushed byte is the one at the new stack top. -/
theorem read_top_pushed : (pushed v s).mem.read (pushed v s).sp.toNat = v := by
  rw [sp_pushed, toNat_sp_sub_one hsp, pushed_mem, Memory.read_write_same]

section
variable {b : Byte} (a : Byte)

/-- Popping a pushed byte into a register other than 7 leaves the byte in it and in its cell, and the PC past both instructions; the
stack pointer is back. -/
theorem exec_pop_of_pushed {r : Fin 8} (hr : b.toNat = r.val) (h7 : r ≠ 7) :
    exec (.pop b) (advance (.push a) (pushed v s)) =
      .next { s.writeReg r v with mem := s.mem.write (s.sp.toNat - 1) v, pc := s.pc + 4 } := by
  have hlow : (advance (.push a) (pushed v s)).sp.toNat ≠ 255 := by
    rw [sp_advance, sp_pushed]
    exact sp_sub_one_ne hsp
  have hregs : ((s.writeReg 7 (s.sp - 1#8)).writeReg r v).writeReg 7 s.sp = s.writeReg r v := by
    rw [writeReg_comm s h7.symm, writeReg_writeReg_same, writeReg_comm s h7, writeReg_sp_self]
  rw [exec_pop_of_other hr h7 hlow, advance_mem, sp_advance, read_top_pushed hsp, sp_pushed, BitVec.sub_add_cancel,
    advance_push_pc, ← hregs]
  rfl

/-- Popping a pushed byte into register 7 leaves the byte plus one in it: the lowered stack pointer is overwritten. -/
theorem exec_pop_sp_of_pushed (hb : b.toNat = 7) (hv : v.toNat ≠ 255) :
    exec (.pop b) (advance (.push a) (pushed v s)) =
      .next { s.writeReg 7 (v + 1#8) with mem := s.mem.write (s.sp.toNat - 1) v, pc := s.pc + 4 } := by
  have htop := read_top_pushed (v := v) hsp
  rw [exec_pop_of_sp (s := advance _ _) hb (htop.symm ▸ hv), advance_mem, sp_advance, htop, advance_push_pc,
    ← writeReg_writeReg_same s 7 (s.sp - 1#8)]
  rfl

end

/-- Popping the register that was pushed, register 7 included, brings every register back; the byte stays in its cell, and the PC is past
both instructions (R142). -/
theorem exec_pop_of_pushed_same {a : Byte} {r : Fin 8} (hr : a.toNat = r.val) :
    exec (.pop a) (advance (.push a) (pushed (if r = 7 then s.sp - 1#8 else s.readReg r) s)) =
      .next { s with
        mem := s.mem.write (s.sp.toNat - 1) (if r = 7 then s.sp - 1#8 else s.readReg r)
        pc := s.pc + 4 } := by
  by_cases h7 : r = 7
  · subst h7
    rw [if_pos rfl, exec_pop_sp_of_pushed hsp a hr (sp_sub_one_ne hsp), BitVec.sub_add_cancel, writeReg_sp_self]
  · rw [if_neg h7, exec_pop_of_pushed hsp a hr h7, writeReg_readReg_self]

end

/-- Settles O41: after the pair every register reads as before, and the pushed byte stands below the stack top. -/
theorem pushThenPopRestoresRegisterAndSp : Obligations.PushThenPopRestoresRegisterAndSp :=
  fun _ _ _ hr hsp => ⟨_, _, exec_push_of_register hr hsp, exec_pop_of_pushed_same hsp hr, rfl, rfl, rfl,
    Memory.read_write_same _ _ _⟩

/-! ## Last-in, first-out -/

section
variable {s : State} {a b : Byte} {r q : Fin 8} (hr : a.toNat = r.val) (h7 : r ≠ 7)
include hr h7

/-- What a PUSH of a register other than 7 leaves: the register's value on the stack top, and every register but the stack pointer. -/
theorem exec_push_other_leaves (hsp : s.sp.toNat ≠ 0) :
    ∃ t, exec (.push a) s = .next t ∧ t.sp = s.sp - 1#8 ∧ t.mem.read t.sp.toNat = s.readReg r ∧ t.run = s.run ∧
      ∀ p, p ≠ 7 → t.readReg p = s.readReg p :=
  ⟨_, exec_push_of_other hr h7 hsp, sp_pushed (s.readReg r) s, read_top_pushed hsp, rfl,
    fun _ hp => readReg_writeReg_other _ _ _ _ hp⟩

/-- What a POP into a register other than 7 leaves: the stack top in the register, and every other register but the stack pointer. -/
theorem exec_pop_other_leaves (hsp : s.sp.toNat ≠ 255) :
    ∃ t, exec (.pop a) s = .next t ∧ t.sp = s.sp + 1#8 ∧ t.readReg r = s.mem.read s.sp.toNat ∧ t.run = s.run ∧
      ∀ p, p ≠ r → p ≠ 7 → t.readReg p = s.readReg p :=
  ⟨_, exec_pop_of_other hr h7 hsp, readReg_writeReg_same _ _ _,
    (readReg_writeReg_other _ _ _ _ h7).trans (readReg_writeReg_same _ _ _), rfl,
    fun _ hp hp7 => (readReg_writeReg_other _ _ _ _ hp7).trans (readReg_writeReg_other _ _ _ _ hp)⟩

/-- A PUSH and a POP copy a register into another and leave the stack as it was: its pointer and its top. -/
theorem exec_push_pop_copies (hq : b.toNat = q.val) (hq7 : q ≠ 7) (hsp : s.sp.toNat ≠ 0) :
    ∃ t u, exec (.push a) s = .next t ∧ exec (.pop b) t = .next u ∧ u.readReg q = s.readReg r ∧ u.sp = s.sp ∧
      u.run = s.run ∧ u.mem.read s.sp.toNat = s.mem.read s.sp.toNat :=
  ⟨_, _, exec_push_of_other hr h7 hsp, exec_pop_of_pushed hsp a hq hq7, readReg_writeReg_same _ _ _, sp_writeReg_other s hq7 _, rfl,
    Memory.read_write_other _ (by omega) _⟩

end

/-- Settles O42: a push and a pop copy; in the middle of four, the pair leaves the stack top the first push made, which the last pop
takes. -/
theorem pushThenPopCopiesLastInFirstOut : Obligations.PushThenPopCopiesLastInFirstOut := by
  intro a b c d ra rb rc rd s ha hb hc hd ha7 hb7 hc7 hd7
  refine ⟨fun hsp => ?_, fun hsp hcd => ?_⟩
  · obtain ⟨t, u, ht, hu, hcopy, husp, hurun, -⟩ := exec_push_pop_copies ha ha7 hb hb7 hsp
    exact ⟨t, u, ht, hu, hcopy, husp, hurun⟩
  · have hsp0 : s.sp.toNat ≠ 0 := by omega
    obtain ⟨t, ht, htsp, httop, htrun, htregs⟩ := exec_push_other_leaves ha ha7 hsp0
    have htsp0 : t.sp.toNat ≠ 0 := by
      rw [htsp, toNat_sp_sub_one hsp0]
      omega
    obtain ⟨u, v, hu, hv, hvc, hvsp, hvrun, hvtop⟩ := exec_push_pop_copies hb hb7 hc hc7 htsp0
    have hvsp255 : v.sp.toNat ≠ 255 := by
      rw [hvsp, htsp]
      exact sp_sub_one_ne hsp0
    obtain ⟨w, hw, hwsp, hwd, hwrun, hwregs⟩ := exec_pop_other_leaves hd hd7 hvsp255
    refine ⟨t, u, v, w, ht, hu, hv, hw, ?_, ?_, ?_, ?_⟩
    · rw [hwregs rc hcd hc7, hvc, htregs rb hb7]
    · rw [hwd, hvsp, hvtop, httop]
    · rw [hwsp, hvsp, htsp, BitVec.sub_add_cancel]
    · rw [hwrun, hvrun, htrun]

end Sys2Proof.Machine
end

section
/-!
PROOFS. The statements of spec/43_subroutine.md: what CALL and RET leave (R160, R161), and that a RET resumes after the CALL (R162).
-/
namespace Sys2Proof.Machine

/-! ## The meanings, by the stack pointer -/

theorem exec_ret_of_sp {s : State} (hsp : s.sp.toNat ≠ 255) :
    exec .ret s = .next (jumpTo (s.mem.read s.sp.toNat) (s.writeReg 7 (s.sp + 1#8))) :=
  exec_of_completes ((handlerFault_of_registers s rfl).trans (if_neg hsp)) (.ret hsp)

/-- Settles O31: for a named register the store and the jump follow the decrement; otherwise the operand raises before the stack
pointer does. -/
theorem callPushesReturnAddressAndJumps : Obligations.CallPushesReturnAddressAndJumps :=
  fun _ s => ⟨fun _ hr hsp _ => exec_call_of_register hr hsp, fun ha => exec_of_first_operand s rfl ha,
    fun ha hsp => exec_of_spRangeFault rfl ha (if_pos hsp)⟩

/-- Settles O32: the jump is to the byte at the stack top as it was before the increment; the increment past 255 is the one fault. -/
theorem retPopsProgramCounter : Obligations.RetPopsProgramCounter :=
  fun s => ⟨exec_ret_of_sp, fun hsp => exec_of_handlerFault ((handlerFault_of_registers s rfl).trans (if_pos hsp))⟩

/-! ## A CALL followed by a RET -/

/-- From an address that a cycle can fetch at, the return address fits in the byte that CALL stores (R160). -/
theorem toNat_returnAddress {s : State} (hpc : s.pc ≤ 253) : (returnAddress s).toNat = s.pc + 2 :=
  (BitVec.toNat_ofNat _ _).trans (Nat.mod_eq_of_lt (by omega))

/-- A machine that runs on after an instruction has completed it: fault entry would have stopped it. -/
theorem completes_of_running {i : Instr} {s t : State} (h : exec i s = .next t) (hrun : t.run = .running) :
    Completes s i t := by
  obtain ⟨-, hc⟩ | ⟨f, -, rfl⟩ := exec_next_cases h
  · exact hc
  · cases hrun

/-- A completed CALL has lowered a stack pointer other than 0 by one, and its return address is the byte at the new stack top. -/
theorem Completes.call_stack {a : Byte} {s t : State} (h : Completes s (.call a) t) :
    s.sp.toNat ≠ 0 ∧ t.sp = s.sp - 1#8 ∧ t.mem.read (stackTop t) = returnAddress s := by
  cases h with
  | call _ hsp => exact ⟨hsp, sp_pushed (returnAddress s) s, read_top_pushed hsp⟩

/-- Settles O43: the RET finds the stack pointer one below that of the CALL, so it can be raised, and the return address at the
stack top. -/
theorem callThenRetResumesAfterCall : Obligations.CallThenRetResumesAfterCall := by
  intro a s t u _ hpc hcall hrun husp hutop
  have hc := completes_of_running hcall hrun
  obtain ⟨hsp, htsp, httop⟩ := hc.call_stack
  have hulow : u.sp = s.sp - 1#8 := husp.trans htsp
  have huhigh : u.sp.toNat ≠ 255 := hulow ▸ sp_sub_one_ne hsp
  have hpop : u.mem.read u.sp.toNat = returnAddress s := hutop.trans httop
  refine ⟨_, exec_ret_of_sp huhigh, rfl, ?_, ?_, fun r h7 => ⟨hc.readReg (decide_eq_false h7),
    readReg_writeReg_other _ _ _ _ h7⟩⟩
  · rw [jumpTo_pc, hpop, toNat_returnAddress hpc]
  · calc (jumpTo (u.mem.read u.sp.toNat) (u.writeReg 7 (u.sp + 1#8))).sp
      _ = u.sp + 1#8 := readReg_writeReg_same _ _ _
      _ = s.sp := by rw [hulow, BitVec.sub_add_cancel]

end Sys2Proof.Machine
end

section
/-!
PROOFS. The statements of spec/60_exceptions.md: which fault a cycle raises (R201 to R208), and that fault entry is precise (R209).
-/
namespace Sys2Proof

/-- The operands that R63 asks to be 0..7 are those the handler uses as register indices (R207). -/
theorem wellFormed_eq_all (i : Instr) : wellFormed i = (Machine.registerOperands i).all isRegister := by
  cases i <;> simp [wellFormed, Machine.registerOperands]

end Sys2Proof

namespace Sys2Proof.Machine

/-! ## The fault a meaning enters -/

section
variable {i : Instr} {s t : State} {f : FaultRecord}

/-- Completing an instruction in a running machine leaves no fault. -/
theorem Completes.run_ne_faulted (h : Completes s i t) (hrun : s.run = .running) : t.run ≠ .faulted f := by
  rw [h.run, hrun]
  split <;> nofun

/-- A meaning enters exactly the fault that its instruction's conditions give (R207). -/
theorem exec_faulted_iff (hrun : s.run = .running) (h : exec i s = .next t) :
    t.run = .faulted f ↔ handlerFault i s = some f := by
  obtain ⟨hnone, hc⟩ | ⟨g, hsome, rfl⟩ := exec_next_cases h
  · rw [hnone]
    exact iff_of_false (hc.run_ne_faulted hrun) nofun
  · rw [hsome, raise_run, RunState.faulted.injEq, Option.some.injEq]

end

theorem regIndexFault_eq_none_iff {bs : List Byte} : regIndexFault bs = none ↔ bs.all isRegister = true := by
  induction bs with
  | nil => exact iff_of_true rfl rfl
  | cons b bs ih =>
    rw [List.all_cons, Bool.and_eq_true, isRegister, decide_eq_true_iff]
    obtain hb | hb := Nat.lt_or_ge b.toNat 8
    · rw [regIndexFault_cons_of_lt bs hb, ih, and_iff_right hb]
    · rw [regIndexFault_cons_of_le bs hb]
      exact iff_of_false nofun fun ⟨hlt, _⟩ => Nat.not_lt.mpr hb hlt

/-- A handler's fault is REG_INDEX exactly for an ill-formed instruction: the operands are checked before the stack pointer, whose own
fault is of another kind (R202, R208). -/
theorem handlerFault_regIndex_iff (i : Instr) (s : State) :
    (∃ v, handlerFault i s = some (.addressFault .regIndex v)) ↔ wellFormed i = false := by
  rw [wellFormed_eq_all, ← Bool.not_eq_true, ← regIndexFault_eq_none_iff]
  cases hr : regIndexFault (registerOperands i) with
  | none =>
    rw [handlerFault_of_registers s hr]
    refine iff_of_false (fun ⟨v, hv⟩ => ?_) (not_not.mpr rfl)
    obtain h | h := spRangeFault_some hv <;> cases h
  | some f =>
    obtain ⟨b, -, rfl⟩ := regIndexFault_some hr
    exact iff_of_true ⟨b.toNat, handlerFault_of_regIndexFault s hr⟩ nofun

/-! ## The fault a step enters -/

section
variable {s t : State} {f : FaultRecord}

/-- A machine with a fault condition enters the fault of the first one, and nothing else changes but the latch (R209). -/
theorem step_of_firstFault (hrun : s.run = .running) (hf : firstFault s = some f) :
    ∃ l, step s = .next { s with run := .faulted f, latch := l } := by
  obtain ⟨hnone, -⟩ | ⟨g, l, hsome, he⟩ := step_cases hrun
  · cases hnone.symm.trans hf
  · cases hsome.symm.trans hf
    exact ⟨l, he⟩

theorem step_faulted_iff (hrun : s.run = .running) (h : step s = .next t) :
    t.run = .faulted f ↔ firstFault s = some f := by
  obtain ⟨hnone, -, i, -, -, hc⟩ | ⟨g, l, hsome, rfl⟩ := step_next_cases hrun h
  · rw [hnone]
    exact iff_of_false (hc.run_ne_faulted hrun) nofun
  · rw [hsome, raise_run, RunState.faulted.injEq, Option.some.injEq]

/-- The first fault condition is one of R200's, or a FETCH from a PC that no run reaches (R25). -/
theorem firstFault_legalAt_or_fetch (h : firstFault s = some f) :
    f.legalAt s.pc ∨ f = .addressFault .fetch s.pc := by
  by_cases hpc : s.pc ≤ 256
  · exact .inl (firstFault_legalAt hpc h)
  · cases (firstFault_of_fetch (s := s) (by omega)).symm.trans h
    exact .inr rfl

end

/-! ## The obligations -/

/-- Settles O10: a step completes where there is no fault condition, and enters the fault of the first one otherwise. -/
theorem cycleFaultIsTheFirstCondition : Obligations.CycleFaultIsTheFirstCondition :=
  fun _ _ hrun h _ => step_faulted_iff hrun h

/-- Settles O6: at these addresses a fetch condition is the first of the list. -/
theorem fetchOutsideMemoryFaults : Obligations.FetchOutsideMemoryFaults := by
  refine fun s hrun => ⟨fun hpc => step_of_firstFault hrun (firstFault_of_fetch hpc), fun hpc => ?_, fun hpc => ?_⟩
  · have haddr : s.pc + 1 = 256 := congrArg (· + 1) hpc
    rw [haddr]
    exact step_of_firstFault hrun (firstFault_of_operand (.inr hpc))
  · have haddr : s.pc + 2 = 256 := congrArg (· + 2) hpc
    rw [haddr]
    exact step_of_firstFault hrun (firstFault_of_operand (.inl hpc))

/-- Settles O7: a byte outside the nine has no row in the table, so the decode condition is the first of the list. -/
theorem undefinedOpcodeRaisesDecodeFault : Obligations.UndefinedOpcodeRaisesDecodeFault :=
  fun _ hrun hpc hop => step_of_firstFault hrun (firstFault_of_undefined hpc (lookupOpcode_of_isOpcode hop))

/-- Settles O9: a step that ends FAULTED had a fault condition, and entering the fault changes the run state and the latch only. -/
theorem faultsArePrecise : Obligations.FaultsArePrecise := by
  intro s t f hrun h hfault
  obtain ⟨l, he⟩ := step_of_firstFault hrun ((step_faulted_iff hrun h).mp hfault)
  cases he.symm.trans h
  exact ⟨rfl, rfl, rfl, rfl⟩

/-- Settles O11: no condition of the list is a MEMORY or an AluUnsupported fault. -/
theorem memoryAndAluFaultsAreNeverRaised : Obligations.MemoryAndAluFaultsAreNeverRaised := by
  intro s t hrun h
  have hlegal {f : FaultRecord} (hfault : t.run = .faulted f) : f.legalAt s.pc ∨ f = .addressFault .fetch s.pc :=
    firstFault_legalAt_or_fetch ((step_faulted_iff hrun h).mp hfault)
  exact ⟨fun _ hfault => (hlegal hfault).elim id nofun, fun _ hfault => (hlegal hfault).elim id nofun⟩

/-- Settles O33: the fault a meaning enters is its handler's, which is REG_INDEX exactly for an ill-formed instruction. -/
theorem regIndexFaultExactlyWhenIllFormed : Obligations.RegIndexFaultExactlyWhenIllFormed := by
  intro i s t hrun h
  simp only [exec_faulted_iff hrun h]
  exact handlerFault_regIndex_iff i s

end Sys2Proof.Machine
end

section
/-!
PROOFS. The statements of spec/70_reset_and_hazards.md: the program load (R242), and the three ways in which a run ends (R244).
-/
namespace Sys2Proof.Machine

/-! ## The program load -/

/-- The load answers a state only for an image that fits, and changes nothing but memory. -/
theorem load_next {source : ImageSource} {s t : State} (h : load source s = .next t) :
    ∃ bytes, source = .image bytes ∧ bytes.length ≤ 256 ∧
      t = { s with mem := s.mem.writeList Config.loadBase bytes } := by
  obtain ⟨-, ⟨bytes, hsource, hfit, he⟩ | ⟨_, -, -, he⟩ | ⟨-, he⟩ | ⟨-, he⟩⟩ | ⟨-, he⟩ := load_cases source s <;>
    cases he.symm.trans h
  exact ⟨bytes, hsource, hfit, rfl⟩

section
variable {s : State} (hc : constructed s = true) {image : List Byte}
include hc

theorem load_image_of_fits (hfit : image.length ≤ 256) :
    load (.image image) s = .next { s with mem := s.mem.writeList Config.loadBase image } := by
  simpa [hc, hfit, Nat.not_lt.mpr hfit] using load_cases (.image image) s

theorem load_image_of_too_long (hlong : 256 < image.length) :
    load (.image image) s = .refused (.loadError (.imageTooLong image.length)) := by
  simpa [hc, hlong, Nat.not_le.mpr hlong] using load_cases (.image image) s

theorem load_missing : load .missing s = .refused (.loadError .sourceMissing) := by
  simpa [hc] using load_cases .missing s

theorem load_unreadable : load .unreadable s = .refused (.loadError .sourceUnreadable) := by
  simpa [hc] using load_cases .unreadable s

end

/-- An image placed from address 0 on in the empty memory stands there, with 0 after it. -/
theorem Memory.read_image (image : List Byte) (a : Nat) :
    (Memory.writeList [] Config.loadBase image).read a = image.getD a 0#8 := by
  rw [Memory.read_writeList]
  exact if_pos (Nat.zero_le a)

/-- Settles O20: the reset machine is the constructed one, and its memory is empty. -/
theorem loadPlacesImageFromAddressZero : Obligations.LoadPlacesImageFromAddressZero := by
  intro v image
  have hc := constructed_resetWith v
  exact ⟨fun hfit => ⟨_, load_image_of_fits hc hfit, Memory.read_image image, rfl⟩,
    load_image_of_too_long hc, load_missing hc, load_unreadable hc⟩

/-- Settles O22: an image that fits is stored inside memory, and the PC and the run state stay as they are. -/
theorem loadKeepsInvariant : Obligations.LoadKeepsInvariant := by
  rintro source s t ⟨hmem, hpc, hrun⟩ h
  obtain ⟨bytes, -, hfit, rfl⟩ := load_next h
  exact ⟨Memory.wf_writeList hmem bytes Config.loadBase ((Nat.zero_add _).trans_le hfit), hpc, hrun⟩

/-! ## The end of a run -/

theorem run_of_step {s t : State} (h : step s = .next t) (k : Nat) : core.run (k + 1) s = core.run k t := by
  have hstep : core.step s = .next t := h
  simp only [Host.Core.run, hstep]

/-- Every number of cycles leads to a next state. -/
theorem run_answers (k : Nat) (s : State) : ∃ t : State, core.run k s = .next t := by
  induction k generalizing s with
  | zero => exact ⟨s, rfl⟩
  | succ k ih =>
    obtain ⟨u, hu⟩ := step_answers s
    rw [run_of_step hu]
    exact ih u

/-- Cycles add up: `j + k` of them are `k` cycles from the state after `j`. -/
theorem run_add {j : Nat} {s t : State} (h : core.run j s = .next t) (k : Nat) : core.run (j + k) s = core.run k t := by
  induction j generalizing s with
  | zero =>
    cases h
    rw [Nat.zero_add]
  | succ j ih =>
    obtain ⟨u, hu⟩ := step_answers s
    rw [Nat.succ_add, run_of_step hu]
    exact ih ((run_of_step hu j).symm.trans h)

/-- The state a run stops in is the state after every later number of cycles (R83). -/
theorem run_of_stopped {j k : Nat} {s t : State} (h : core.run j s = .next t) (hstop : t.run ≠ .running) (hle : j ≤ k) :
    core.run k s = .next t := by
  obtain ⟨d, rfl⟩ := Nat.exists_eq_add_of_le hle
  exact (run_add h d).trans (stoppedMachineStaysAsItIs t hstop d)

/-- The run from a state is in this run state after some number of cycles: what the two ends of R244 have in common. -/
def Reaches (s : State) (r : RunState) : Prop := ∃ k t, core.run k s = .next t ∧ t.run = r

theorem endsNormally_iff {s : State} : endsNormally s ↔ Reaches s .halted := Iff.rfl

theorem endsInFault_iff {s : State} {f : FaultRecord} : endsInFault s f ↔ Reaches s (.faulted f) := Iff.rfl

/-- A run stops in one run state only: the later of two stops is still in the state of the earlier one. -/
theorem Reaches.stop_unique {s : State} {r q : RunState} (hr : Reaches s r) (hq : Reaches s q) (hrstop : r ≠ .running)
    (hqstop : q ≠ .running) : r = q := by
  obtain ⟨j, t, ht, rfl⟩ := hr
  obtain ⟨k, u, hu, rfl⟩ := hq
  have htlate := run_of_stopped ht hrstop (Nat.le_max_left j k)
  have hulate := run_of_stopped hu hqstop (Nat.le_max_right j k)
  cases htlate.symm.trans hulate
  rfl

theorem neverEnds_iff {s : State} : neverEnds s ↔ ∀ r, Reaches s r → r = .running := by
  constructor
  · rintro hnever r ⟨k, t, ht, rfl⟩
    obtain ⟨u, hu, hrun⟩ := hnever k
    cases ht.symm.trans hu
    exact hrun
  · intro h k
    obtain ⟨t, ht⟩ := run_answers k s
    exact ⟨t, ht, h t.run ⟨k, t, ht, rfl⟩⟩

theorem Reaches.not_neverEnds {s : State} {r : RunState} (h : Reaches s r) (hstop : r ≠ .running) : ¬ neverEnds s :=
  fun hnever => hstop (neverEnds_iff.mp hnever r h)

/-- A run that reaches neither HALTED nor FAULTED stays RUNNING. -/
theorem endsNormally_or_endsInFault_or_neverEnds (s : State) :
    endsNormally s ∨ (∃ f, endsInFault s f) ∨ neverEnds s := by
  by_cases hhalt : endsNormally s
  · exact .inl hhalt
  by_cases hfault : ∃ f, endsInFault s f
  · exact .inr (.inl hfault)
  refine .inr (.inr (neverEnds_iff.mpr fun r hr => ?_))
  cases r with
  | running => rfl
  | halted => exact absurd (endsNormally_iff.mpr hr) hhalt
  | faulted f => exact absurd ⟨f, endsInFault_iff.mpr hr⟩ hfault

/-- Settles O23: a run stops in at most one run state, and HALTED and the faults are different ones. -/
theorem runEndsInExactlyOneWay : Obligations.RunEndsInExactlyOneWay := by
  refine fun s => ⟨endsNormally_or_endsInFault_or_neverEnds s, fun hhalt => ?_, fun f hfault => ?_⟩
  · rw [endsNormally_iff] at hhalt
    exact ⟨hhalt.not_neverEnds nofun, fun f hf => nomatch hhalt.stop_unique (endsInFault_iff.mp hf) nofun nofun⟩
  · rw [endsInFault_iff] at hfault
    refine ⟨hfault.not_neverEnds nofun, fun g hg => ?_⟩
    cases hfault.stop_unique (endsInFault_iff.mp hg) nofun nofun
    rfl

end Sys2Proof.Machine
end
